-- ==== Sys2Proof/Word.lean ====
section
/-! DEFINITION. The words of the A-VM core: bytes, registers' 64-bit contents, the four widths (R7, R14, R22). -/

namespace Sys2Proof

/-- One byte of memory, one byte of a host stream. -/
abbrev Byte := BitVec 8

/-- The whole content of a register: `REG_BYTES` bytes (R20). -/
abbrev Word64 := BitVec 64

/-- A pointer-width word: `pc`, `sp`, a jump target, an operand field (R24, R27, R84). -/
abbrev Word16 := BitVec 16

/-- A width, a number of bytes out of 1, 2, 4, 8 (R7, R22). -/
inductive Width where
  | w1 | w2 | w4 | w8
deriving DecidableEq, Repr

/-- The width in bytes. -/
def Width.bytes : Width → Nat
  | .w1 => 1
  | .w2 => 2
  | .w4 => 4
  | .w8 => 8

/-- The width in bits, `W = 8*w` (R7). -/
abbrev Width.bits (w : Width) : Nat := 8 * w.bytes

end Sys2Proof
end

