-- ==== Sys2Proof/Config.lean ====
section
/-! DEFINITION. The implementation parameters of R6. `REG_INDEX`, `WIDTH_MAP` and `OPCODE_MAP` are tables of the
encoding and stand in Sys2Proof/Decode.lean. -/

namespace Sys2Proof.Config

/-- `MEM_SIZE`'s default (R6, D1). A machine's own capacity is the field `memSize` of its state (log 1). -/
def defaultMemSize : Nat := 65536

/-- The largest capacity R6 allows (D1). -/
def maxMemSize : Nat := 65536

/-- `NREG` (R6, R20). -/
def nreg : Nat := 6

/-- `REG_BYTES`, the bytes of a register (R6, R20). The register type `Word64` has eight bits for each. -/
def regBytes : Nat := 8

/-- `PTR`, the pointer width (R6, D2). -/
abbrev ptr : Width := .w2

/-- `EOF_BYTE`, what `getc_` delivers at end of input (R6, R221, D25). -/
def eofByte : Byte := 0xFF#8

end Sys2Proof.Config
end

