-- ==== Sys2Proof/Syntax.lean ====
section
/-! DEFINITION. The instructions (R92) and their operands (R84 to R89) as syntax. -/

namespace Sys2Proof

/-- The six registers (R20). -/
inductive Reg where
  | aaa | bbb | stk | bsp | acc | cur
deriving DecidableEq, Repr

/-- A 16-bit operand field by its two flags `R` and `M`, with its 14-bit payload (R84 to R86). A payload that is a
register number keeps all its 14 bits: a number above 5 is caught when the operand is resolved, not before (R94). -/
inductive Operand where
  /-- `R = 0, M = 0`: immediate. -/
  | imm (p : BitVec 14)
  /-- `R = 1, M = 0`: register-direct. -/
  | reg (p : BitVec 14)
  /-- `R = 0, M = 1`: memory-direct. -/
  | mem (p : BitVec 14)
  /-- `R = 1, M = 1`: register-indirect-memory. -/
  | ind (p : BitVec 14)
deriving DecidableEq, Repr

/-- One constructor per row of spec/opcode_table.json. `w` is the width the width code selects (R82); the instructions
of R83 carry it too, so that no bit of an encoding is dropped. A literal field (R87) is its 16 bits. -/
inductive Instr where
  | mov  (w : Width) (src dst : Operand)
  | add  (w : Width) (a b dst : Operand)
  | sub  (w : Width) (a b dst : Operand)
  | mul  (w : Width) (a b dst : Operand)
  | udiv (w : Width) (a b dst : Operand)
  | idiv (w : Width) (a b dst : Operand)
  | shl  (w : Width) (a b dst : Operand)
  | shr  (w : Width) (a b dst : Operand)
  | sal  (w : Width) (a b dst : Operand)
  | sar  (w : Width) (a b dst : Operand)
  | and  (w : Width) (a b dst : Operand)
  | or   (w : Width) (a b dst : Operand)
  | xor  (w : Width) (a b dst : Operand)
  | neg  (w : Width) (src dst : Operand)
  | pos  (w : Width) (src dst : Operand)
  | lnot (w : Width) (src dst : Operand)
  | bnot (w : Width) (src dst : Operand)
  | sxu  (w : Width) (src dst : Operand) (sel : Word16)
  | sxi  (w : Width) (src dst : Operand) (sel : Word16)
  | jmp  (w : Width) (cc : Word16) (target : Operand)
  | stks (w : Width) (src : Operand)
  | push (w : Width) (src : Operand)
  | pop  (w : Width) (dst : Operand)
  | call (w : Width) (target : Operand)
  | ret  (w : Width) (count : Operand)
  | halt (w : Width)
  | getc_ (w : Width) (dst : Operand)
  | putc_ (w : Width) (src : Operand)
  | ucmp (w : Width) (a b : Operand)
  | icmp (w : Width) (a b : Operand)
deriving DecidableEq, Repr

end Sys2Proof
end

