-- ==== Sys2Proof/WellFormed.lean ====
section
/-! DEFINITION. Well-formed instructions: those none of whose fields is an illegal encoding of R94. An ill-formed one still
encodes, decodes and runs: running it raises the fault R94 names. -/

namespace Sys2Proof

/-- A source operand whose register number, if it has one, exists (R85, R94). -/
def Operand.sourceOk : Operand → Bool
  | .imm _ => true
  | .reg p => p.toNat ≤ 5
  | .mem _ => true
  | .ind p => p.toNat ≤ 5

/-- A destination operand: as a source, and no immediate (R94). -/
def Operand.destOk : Operand → Bool
  | .imm _ => false
  | .reg p => p.toNat ≤ 5
  | .mem _ => true
  | .ind p => p.toNat ≤ 5

/-- A legal condition code of `jmp` (R94, R190). -/
def condOk (cc : Word16) : Bool := cc.toNat ≤ 6

/-- A legal target-width selector of `sxu` and `sxi` (R94, R180). -/
def selOk (sel : Word16) : Bool := sel.toNat ≤ 3

/-- Every field of the instruction is a legal encoding (R94). -/
def Instr.wellFormed : Instr → Bool
  | .mov _ src dst => src.sourceOk && dst.destOk
  | .add _ a b dst => a.sourceOk && b.sourceOk && dst.destOk
  | .sub _ a b dst => a.sourceOk && b.sourceOk && dst.destOk
  | .mul _ a b dst => a.sourceOk && b.sourceOk && dst.destOk
  | .udiv _ a b dst => a.sourceOk && b.sourceOk && dst.destOk
  | .idiv _ a b dst => a.sourceOk && b.sourceOk && dst.destOk
  | .shl _ a b dst => a.sourceOk && b.sourceOk && dst.destOk
  | .shr _ a b dst => a.sourceOk && b.sourceOk && dst.destOk
  | .sal _ a b dst => a.sourceOk && b.sourceOk && dst.destOk
  | .sar _ a b dst => a.sourceOk && b.sourceOk && dst.destOk
  | .and _ a b dst => a.sourceOk && b.sourceOk && dst.destOk
  | .or _ a b dst => a.sourceOk && b.sourceOk && dst.destOk
  | .xor _ a b dst => a.sourceOk && b.sourceOk && dst.destOk
  | .neg _ src dst => src.sourceOk && dst.destOk
  | .pos _ src dst => src.sourceOk && dst.destOk
  | .lnot _ src dst => src.sourceOk && dst.destOk
  | .bnot _ src dst => src.sourceOk && dst.destOk
  | .sxu _ src dst sel => src.sourceOk && dst.destOk && selOk sel
  | .sxi _ src dst sel => src.sourceOk && dst.destOk && selOk sel
  | .jmp _ cc target => condOk cc && target.sourceOk
  | .stks _ src => src.sourceOk
  | .push _ src => src.sourceOk
  | .pop _ dst => dst.destOk
  | .call _ target => target.sourceOk
  | .ret _ count => count.sourceOk
  | .halt _ => true
  | .getc_ _ dst => dst.destOk
  | .putc_ _ src => src.sourceOk
  | .ucmp _ a b => a.sourceOk && b.sourceOk
  | .icmp _ a b => a.sourceOk && b.sourceOk

end Sys2Proof
end

