-- ==== Sys2Proof/Decode.lean ====
section
/-! DEFINITION. The encoding (spec/30_encoding.md): the tables, the decoder and the encoder. -/

namespace Sys2Proof

/-! ## The tables -/

/-- `WIDTH_MAP`, width code to width (R82, D3). -/
def widthOfCode (wc : BitVec 2) : Width :=
  match wc.toNat with
  | 0 => .w1
  | 1 => .w2
  | 2 => .w4
  | _ => .w8

/-- The width code that selects a width (R82). -/
def codeOfWidth : Width → BitVec 2
  | .w1 => 0
  | .w2 => 1
  | .w4 => 2
  | .w8 => 3

/-- `REG_INDEX` read backwards: the register a number names; none above 5 (R21, R85, D4). -/
def regOfIndex (p : BitVec 14) : Option Reg :=
  match p.toNat with
  | 0 => some .aaa
  | 1 => some .bbb
  | 2 => some .stk
  | 3 => some .bsp
  | 4 => some .acc
  | 5 => some .cur
  | _ => none

/-- The mnemonics of the opcode map (R92). -/
inductive Mnemonic where
  | mov | add | sub | mul | udiv | idiv | shl | shr | sal | sar | and | or | xor
  | neg | pos | lnot | bnot | sxu | sxi | jmp | stks | push | pop | call | ret
  | halt | getc_ | putc_ | ucmp | icmp
deriving DecidableEq, Repr

/-- `OPCODE_MAP` (R92, D5): the mnemonic of each opcode index, in the order of the indices from 0. -/
def opcodeMap : List Mnemonic :=
  [.mov, .add, .sub, .mul, .udiv, .idiv, .shl, .shr, .sal, .sar] ++
  [.and, .or, .xor, .neg, .pos, .lnot, .bnot, .sxu, .sxi, .jmp] ++
  [.stks, .push, .pop, .call, .ret, .halt, .getc_, .putc_, .ucmp, .icmp]

/-- The opcode index of a mnemonic: its place in the map (R92). -/
def Mnemonic.index (m : Mnemonic) : Nat := opcodeMap.idxOf m

/-- The number of 16-bit fields after the opcode byte: the format of the mnemonic (R89, R90). -/
def Mnemonic.fieldCount : Mnemonic → Nat
  | .halt => 0
  | .stks => 1
  | .push => 1
  | .pop => 1
  | .call => 1
  | .ret => 1
  | .getc_ => 1
  | .putc_ => 1
  | .mov => 2
  | .neg => 2
  | .pos => 2
  | .lnot => 2
  | .bnot => 2
  | .jmp => 2
  | .ucmp => 2
  | .icmp => 2
  | .add => 3
  | .sub => 3
  | .mul => 3
  | .udiv => 3
  | .idiv => 3
  | .shl => 3
  | .shr => 3
  | .sal => 3
  | .sar => 3
  | .and => 3
  | .or => 3
  | .xor => 3
  | .sxu => 3
  | .sxi => 3

/-! ## The opcode byte (R81) -/

/-- Bits 7:6, the width code. -/
def widthCode (b : Byte) : BitVec 2 := b.extractLsb' 6 2

/-- Bits 5:0, the opcode index. -/
def opcodeIndex (b : Byte) : BitVec 6 := b.extractLsb' 0 6

/-- The instruction width an opcode byte selects (R82). -/
def widthOfByte (b : Byte) : Width := widthOfCode (widthCode b)

/-- The mnemonic an opcode byte selects; none for the 34 unassigned indices (R92, R93). -/
def mnemonicOfByte (b : Byte) : Option Mnemonic := opcodeMap[(opcodeIndex b).toNat]?

/-- The opcode byte of a mnemonic at a width (R81, R92). -/
def opcodeByte (m : Mnemonic) (w : Width) : Byte := codeOfWidth w ++ BitVec.ofNat 6 m.index

/-! ## Operand fields (R54, R84) -/

/-- An operand field from its two bytes, high byte first (R54). -/
def fieldOfBytes (hi lo : Byte) : Word16 := hi ++ lo

/-- The byte of a field at the lower address, bits 15:8 (R54). -/
def fieldHigh (f : Word16) : Byte := f.extractLsb' 8 8

/-- The byte of a field at the higher address, bits 7:0 (R54). -/
def fieldLow (f : Word16) : Byte := f.extractLsb' 0 8

/-- The operand a field encodes: bit 15 is `R`, bit 14 is `M`, bits 13:0 the payload (R84, R86). -/
def Operand.ofField (f : Word16) : Operand :=
  match f.getLsbD 15, f.getLsbD 14 with
  | false, false => .imm (f.extractLsb' 0 14)
  | true, false => .reg (f.extractLsb' 0 14)
  | false, true => .mem (f.extractLsb' 0 14)
  | true, true => .ind (f.extractLsb' 0 14)

/-- The field of an operand (R84, R86). -/
def Operand.toField : Operand → Word16
  | .imm p => 0b00#2 ++ p
  | .reg p => 0b10#2 ++ p
  | .mem p => 0b01#2 ++ p
  | .ind p => 0b11#2 ++ p

/-! ## The decoder -/

/-- The instruction of a mnemonic, a width and its fields (R89). A mnemonic looks at no field past its own count. -/
def assemble (m : Mnemonic) (w : Width) (fs : List Word16) : Instr :=
  let f1 := fs.getD 0 0
  let f2 := fs.getD 1 0
  let f3 := fs.getD 2 0
  match m with
  | .mov => .mov w (.ofField f1) (.ofField f2)
  | .add => .add w (.ofField f1) (.ofField f2) (.ofField f3)
  | .sub => .sub w (.ofField f1) (.ofField f2) (.ofField f3)
  | .mul => .mul w (.ofField f1) (.ofField f2) (.ofField f3)
  | .udiv => .udiv w (.ofField f1) (.ofField f2) (.ofField f3)
  | .idiv => .idiv w (.ofField f1) (.ofField f2) (.ofField f3)
  | .shl => .shl w (.ofField f1) (.ofField f2) (.ofField f3)
  | .shr => .shr w (.ofField f1) (.ofField f2) (.ofField f3)
  | .sal => .sal w (.ofField f1) (.ofField f2) (.ofField f3)
  | .sar => .sar w (.ofField f1) (.ofField f2) (.ofField f3)
  | .and => .and w (.ofField f1) (.ofField f2) (.ofField f3)
  | .or => .or w (.ofField f1) (.ofField f2) (.ofField f3)
  | .xor => .xor w (.ofField f1) (.ofField f2) (.ofField f3)
  | .neg => .neg w (.ofField f1) (.ofField f2)
  | .pos => .pos w (.ofField f1) (.ofField f2)
  | .lnot => .lnot w (.ofField f1) (.ofField f2)
  | .bnot => .bnot w (.ofField f1) (.ofField f2)
  | .sxu => .sxu w (.ofField f1) (.ofField f2) f3
  | .sxi => .sxi w (.ofField f1) (.ofField f2) f3
  | .jmp => .jmp w f1 (.ofField f2)
  | .stks => .stks w (.ofField f1)
  | .push => .push w (.ofField f1)
  | .pop => .pop w (.ofField f1)
  | .call => .call w (.ofField f1)
  | .ret => .ret w (.ofField f1)
  | .halt => .halt w
  | .getc_ => .getc_ w (.ofField f1)
  | .putc_ => .putc_ w (.ofField f1)
  | .ucmp => .ucmp w (.ofField f1) (.ofField f2)
  | .icmp => .icmp w (.ofField f1) (.ofField f2)

/-- Why a list of bytes is no instruction. -/
inductive DecodeError where
  /-- The opcode index is one of the 34 unassigned ones (R93). -/
  | unassigned (index : BitVec 6)
  /-- The list ends before the instruction does; memory has no such end, so `step` never meets it. -/
  | truncated
deriving DecidableEq, Repr

/-- The first `k` fields of a list of bytes, with the rest of the list. -/
def takeFields : Nat → List Byte → Option (List Word16 × List Byte)
  | 0, bs => some ([], bs)
  | k + 1, hi :: lo :: bs =>
    match takeFields k bs with
    | some (fs, rest) => some (fieldOfBytes hi lo :: fs, rest)
    | none => none
  | _ + 1, _ => none

/-- The instruction at the head of a list of bytes, with the rest of the list (R80, R91). -/
def decode : List Byte → Except DecodeError (Instr × List Byte)
  | [] => .error .truncated
  | b :: bs =>
    match mnemonicOfByte b with
    | none => .error (.unassigned (opcodeIndex b))
    | some m =>
      match takeFields m.fieldCount bs with
      | none => .error .truncated
      | some (fs, rest) => .ok (assemble m (widthOfByte b) fs, rest)

/-! ## The encoder -/

/-- The mnemonic of an instruction. -/
def Instr.mnemonic : Instr → Mnemonic
  | .mov .. => .mov
  | .add .. => .add
  | .sub .. => .sub
  | .mul .. => .mul
  | .udiv .. => .udiv
  | .idiv .. => .idiv
  | .shl .. => .shl
  | .shr .. => .shr
  | .sal .. => .sal
  | .sar .. => .sar
  | .and .. => .and
  | .or .. => .or
  | .xor .. => .xor
  | .neg .. => .neg
  | .pos .. => .pos
  | .lnot .. => .lnot
  | .bnot .. => .bnot
  | .sxu .. => .sxu
  | .sxi .. => .sxi
  | .jmp .. => .jmp
  | .stks .. => .stks
  | .push .. => .push
  | .pop .. => .pop
  | .call .. => .call
  | .ret .. => .ret
  | .halt .. => .halt
  | .getc_ .. => .getc_
  | .putc_ .. => .putc_
  | .ucmp .. => .ucmp
  | .icmp .. => .icmp

/-- The width of an instruction's width code. -/
def Instr.width : Instr → Width
  | .mov w .. | .add w .. | .sub w .. | .mul w .. | .udiv w .. | .idiv w .. | .shl w .. | .shr w .. | .sal w .. | .sar w ..
  | .and w .. | .or w .. | .xor w .. | .neg w .. | .pos w .. | .lnot w .. | .bnot w .. | .sxu w .. | .sxi w .. | .jmp w ..
  | .stks w .. | .push w .. | .pop w .. | .call w .. | .ret w .. | .halt w | .getc_ w .. | .putc_ w .. | .ucmp w ..
  | .icmp w .. => w

/-- The fields of an instruction, in the order they follow the opcode byte (R89). -/
def Instr.fields : Instr → List Word16
  | .mov _ src dst | .neg _ src dst | .pos _ src dst | .lnot _ src dst | .bnot _ src dst => [src.toField, dst.toField]
  | .add _ a b dst | .sub _ a b dst | .mul _ a b dst | .udiv _ a b dst | .idiv _ a b dst | .shl _ a b dst | .shr _ a b dst
  | .sal _ a b dst | .sar _ a b dst | .and _ a b dst | .or _ a b dst | .xor _ a b dst => [a.toField, b.toField, dst.toField]
  | .sxu _ src dst sel | .sxi _ src dst sel => [src.toField, dst.toField, sel]
  | .jmp _ cc target => [cc, target.toField]
  | .stks _ o | .push _ o | .pop _ o | .call _ o | .ret _ o | .getc_ _ o | .putc_ _ o => [o.toField]
  | .halt _ => []
  | .ucmp _ a b | .icmp _ a b => [a.toField, b.toField]

/-- The bytes of a list of fields, each high byte first (R54). -/
def fieldBytes : List Word16 → List Byte
  | [] => []
  | f :: fs => fieldHigh f :: fieldLow f :: fieldBytes fs

/-- The bytes of an instruction: its opcode byte, then its fields (R80). -/
def encode (i : Instr) : List Byte := opcodeByte i.mnemonic i.width :: fieldBytes i.fields

/-- The length of an instruction in bytes (R90). -/
def Instr.length (i : Instr) : Nat := 1 + 2 * i.mnemonic.fieldCount

/-! ## The opcode table's numbering -/

/-- The `n` low bytes of a number, lowest first: byte `k` is bits `8k+7 .. 8k`, which is how spec/opcode_table.json numbers
the bits of an instruction laid out in memory. -/
def bytesOfNat : Nat → Nat → List Byte
  | 0, _ => []
  | n + 1, x => BitVec.ofNat 8 x :: bytesOfNat n (x / 256)

/-- The longest instruction, in bytes (R80). -/
def maxLength : Nat := 7

/-- The seven bytes of a table word of `nbits` bits, every bit above them 0. -/
def tableBytes (nbits w : Nat) : List Byte := bytesOfNat maxLength (w % 2 ^ nbits)

/-- The instruction the decoder reads from an instruction whose bits are `w`, numbered as the opcode table numbers them. -/
def decodeTableWord (nbits w : Nat) : Option Instr :=
  match decode (tableBytes nbits w) with
  | .ok (i, _) => some i
  | .error _ => none

end Sys2Proof
end

