-- ==== Sys2Proof/Machine/State.lean ====
section
/-! DEFINITION. The state of the core and of its two host streams (spec/10_state.md), the reset state (R44), and the reasons a step
can stop. -/

namespace Sys2Proof.Machine

/-- The closed set `Cause` (R240). Taking one of them is a next state of the machine, not a stop of the model (R121). -/
inductive Cause where
  | halt | decodeFault | memOutOfBounds | regOutOfBounds
  | invalidWriteTarget | divideByZero | invalidJumpCondition | invalidExtendWidth
deriving DecidableEq, Repr

/-- The register file: six registers of 64 bits (R20). `pc` is the low 16 bits of `cur` (R24), `sp` those of `stk` (R27). -/
structure Regs where
  aaa : Word64
  bbb : Word64
  stk : Word64
  bsp : Word64
  acc : Word64
  cur : Word64
deriving DecidableEq, Repr

/-- Memory as a list of (address, byte): addresses strictly rising, no listed byte 0x00, which is what an unlisted address
reads as (R44, log 7). -/
abbrev Memory := List Host.Cell

/-- `State` and `Env` of spec/10_state.md, and the capacity the machine was constructed with. -/
structure State where
  /-- The register file (R20). -/
  regs : Regs
  /-- Memory (R34). -/
  mem : Memory
  /-- `MEM_SIZE`, fixed at construction: no step writes it (R6). DESIGN CHOICE that it is a field, safe (log 1). -/
  memSize : Nat
  /-- The flag `equal` (R28). -/
  equal : Bool
  /-- The flag `less` (R28). -/
  less : Bool
  /-- Opcode bytes fetched so far, unbounded (R30). -/
  cycles : Nat
  /-- RUNNING or HALTED (R31, R110). -/
  running : Bool
  /-- The message of the cause, present once halted (R32). -/
  panicMessage : Option String
  /-- The cause, present once halted (R33). -/
  faultCause : Option Cause
  /-- The input stream: the bytes the host has supplied, consumed ones included (R37, R42). DESIGN CHOICE of form,
  safe (log 3). -/
  input : List Byte
  /-- The host has declared end-of-stream after `input` (R37, R42). DESIGN CHOICE of form, safe (log 3). -/
  inputEnded : Bool
  /-- Bytes `getc_` has consumed (R37). -/
  inPos : Nat
  /-- Bytes `putc_` has emitted, in order (R37). -/
  output : List Byte
deriving DecidableEq, Repr

/-- The state after construction at the default capacity, before an image is loaded and before the first step (R44). UNVERIFIED,
unsafe: most of these values are the spec's decision D24, not its source's (log 2). DEDUCED, safe: the host
has supplied no input byte yet and has declared no end-of-stream (log 3). -/
def State.reset : State where
  regs := ⟨0#64, 0#64, 0#64, 0#64, 0#64, 0#64⟩
  mem := []
  memSize := Config.defaultMemSize
  equal := false
  less := false
  cycles := 0
  running := true
  panicMessage := none
  faultCause := none
  input := []
  inputEnded := false
  inPos := 0
  output := []

/-- Why a step answers no next state. Neither is a fault of the spec: the eight causes of R240 are next states. -/
inductive Fault where
  /-- Raised by `step` on a HALTED machine: no step is enabled there (R110, U20). DEDUCED (log 5). Safe: the run simply ends. -/
  | halted
  /-- Raised by `getc_` while the host has neither a byte nor end-of-stream: the step is not enabled until it does
  (R42, R221, U11). DEDUCED (log 4). Safe: nothing is claimed of the wait. -/
  | awaitingInput
deriving DecidableEq, Repr

/-- Why an instruction has no meaning. -/
inductive Refusal where
  /-- Raised by an arm of `exec` whose instruction is not modelled yet; no arm is. Safe. -/
  | notModelled (mnemonic : String)
deriving DecidableEq, Repr

end Sys2Proof.Machine
end

