-- ==== Sys2Proof/Machine/Ops.lean ====
section
/-! DEFINITION. The named operations over registers, memory, status and the host streams, and taking a fault. -/

namespace Sys2Proof.Machine

/-! ## Registers (R22, R24, R27) -/

/-- The whole content of a register. -/
def Regs.get (x : Regs) : Reg → Word64
  | .aaa => x.aaa
  | .bbb => x.bbb
  | .stk => x.stk
  | .bsp => x.bsp
  | .acc => x.acc
  | .cur => x.cur

/-- The register file with a register's whole content replaced. -/
def Regs.set (x : Regs) (r : Reg) (v : Word64) : Regs :=
  match r with
  | .aaa => { x with aaa := v }
  | .bbb => { x with bbb := v }
  | .stk => { x with stk := v }
  | .bsp => { x with bsp := v }
  | .acc => { x with acc := v }
  | .cur => { x with cur := v }

/-- `old` with its low `w` bytes replaced by `v` and the others kept (R8, R22). -/
def mergeLow (old : Word64) (w : Width) (v : BitVec w.bits) : Word64 :=
  ((old >>> w.bits) <<< w.bits) ||| v.setWidth 64

/-- `RegRead(i, w)`: the low `w` bytes of a register (R8, R22). -/
def State.regRead (s : State) (r : Reg) (w : Width) : BitVec w.bits := (s.regs.get r).setWidth w.bits

/-- `RegWrite(i, w, v)`: the low `w` bytes replaced, the others kept (R8, R22). -/
def State.regWrite (s : State) (r : Reg) (w : Width) (v : BitVec w.bits) : State :=
  { s with regs := s.regs.set r (mergeLow (s.regs.get r) w v) }

/-- The program counter (R24). -/
def State.pc (s : State) : Word16 := s.regRead .cur Config.ptr

/-- `pc <- t` (R24). -/
def State.setPc (s : State) (t : Word16) : State := s.regWrite .cur Config.ptr t

/-- The stack pointer (R27). -/
def State.sp (s : State) : Word16 := s.regRead .stk Config.ptr

/-- `sp <- t` (R27). -/
def State.setSp (s : State) (t : Word16) : State := s.regWrite .stk Config.ptr t

/-! ## Memory (R50 to R53) -/

/-- What an address that memory does not list reads as (R44). UNVERIFIED, unsafe: the spec's decision D24 (log 7). -/
def unlistedByte : Byte := 0#8

/-- The byte at an address. -/
def Memory.read : Memory → Nat → Byte
  | [], _ => unlistedByte
  | (b, v) :: m, a => if a = b then v else Memory.read m a

/-- Memory with no entry for an address. -/
def Memory.erase (m : Memory) (a : Nat) : Memory := m.filter fun c => decide (c.1 ≠ a)

/-- An entry put before the first one of a higher address. -/
def Memory.insert : Memory → Nat → Byte → Memory
  | [], a, v => [(a, v)]
  | (b, u) :: m, a, v => if a < b then (a, v) :: (b, u) :: m else (b, u) :: Memory.insert m a v

/-- Memory with one byte replaced; a byte that an unlisted address reads as is not listed. -/
def Memory.write (m : Memory) (a : Nat) (v : Byte) : Memory :=
  if v = unlistedByte then m.erase a else (m.erase a).insert a v

/-- The canonical form: addresses strictly rising, no listed byte equal to what an unlisted address reads as. -/
abbrev Memory.wf (m : Memory) : Prop := m.Pairwise (fun c d => c.1 < d.1) ∧ ∀ c ∈ m, c.2 ≠ unlistedByte

/-- Every listed address is below `n`. -/
abbrev Memory.below (m : Memory) (n : Nat) : Prop := ∀ c ∈ m, c.1 < n

/-- The `n` bytes from address `a` on, the first one lowest (R50, R51). -/
def Memory.readLE (m : Memory) (a : Nat) : (n : Nat) → BitVec (8 * n)
  | 0 => 0#0
  | n + 1 => (Memory.readLE m (a + 1) n ++ m.read a : BitVec (8 * n + 8))

/-- The `n` low bytes of `v` stored from address `a` on, the lowest first (R50, R52). -/
def Memory.writeLE (m : Memory) (a : Nat) {k : Nat} (v : BitVec k) : Nat → Memory
  | 0 => m
  | n + 1 => (Memory.writeLE m a v n).write (a + n) (v.extractLsb' (8 * n) 8)

/-- A list of bytes stored from address `a` on (R40). -/
def Memory.writeBytes : Memory → Nat → List Byte → Memory
  | m, _, [] => m
  | m, a, b :: bs => Memory.writeBytes (m.write a b) (a + 1) bs

/-- The bounds check of every access: `n` bytes from `a` on lie inside memory (R53). -/
def State.inBounds (s : State) (a n : Nat) : Bool := decide (a + n ≤ s.memSize)

/-- `MemRead(a, w)` (R51). -/
def State.memRead (s : State) (a : Nat) (w : Width) : Except Cause (BitVec w.bits) :=
  if s.inBounds a w.bytes then .ok (s.mem.readLE a w.bytes) else .error .memOutOfBounds

/-- The store of `w` bytes at `a` once its bounds are checked (R52, R119). -/
def State.putBytes (s : State) (a : Nat) (w : Width) (v : BitVec w.bits) : State :=
  { s with mem := s.mem.writeLE a v w.bytes }

/-- `MemWrite(a, w, v)` (R52). -/
def State.memWrite (s : State) (a : Nat) (w : Width) (v : BitVec w.bits) : Except Cause State :=
  if s.inBounds a w.bytes then .ok (s.putBytes a w v) else .error .memOutOfBounds

/-! ## Flags, cycle counter, streams -/

/-- Both flags written (R231, R232). -/
def State.setFlags (s : State) (equal less : Bool) : State := { s with equal := equal, less := less }

/-- One more fetched opcode byte (R30). -/
def State.countCycle (s : State) : State := { s with cycles := s.cycles + 1 }

/-- `Emit(b)` (R43, R222). -/
def State.emit (s : State) (b : Byte) : State := { s with output := s.output ++ [b] }

/-- One input byte consumed (R221). -/
def State.consume (s : State) : State := { s with inPos := s.inPos + 1 }

/-- `NextInput()`, with what `getc_` makes of its answer: the next byte, consumed; `EOF_BYTE` at end-of-stream, nothing consumed;
none while the host has answered neither (R42, R221, log 4). -/
def State.nextInput (s : State) : Option (Byte × State) :=
  match s.input[s.inPos]? with
  | some b => some (b, s.consume)
  | none => if s.inputEnded then some (Config.eofByte, s) else none

/-! ## Taking a fault (R10, R121, R240, R242) -/

/-- The numeric code of a cause (R240). No register holds it. -/
def Cause.code : Cause → Nat
  | .halt => 0
  | .decodeFault => 1
  | .memOutOfBounds => 2
  | .regOutOfBounds => 3
  | .invalidWriteTarget => 4
  | .divideByZero => 5
  | .invalidJumpCondition => 6
  | .invalidExtendWidth => 7

/-- `Msg(c)` (R240). -/
def Cause.message : Cause → String
  | .halt => "CPU halted"
  | .decodeFault => "Unrecognized opcode"
  | .memOutOfBounds => "Memory access out of bounds"
  | .regOutOfBounds => "Register index out of bounds"
  | .invalidWriteTarget => "Write to immediate operand"
  | .divideByZero => "Division by zero"
  | .invalidJumpCondition => "Invalid jump condition code"
  | .invalidExtendWidth => "Invalid size used in instruction: SXD/SXI"

/-- `raise Fault(c)`: the machine is HALTED with the cause and its message; nothing else changes (R121, R242). There is no return
from it (R247). DEDUCED, safe: a fault is a next state (log 6). -/
def State.raise (s : State) (c : Cause) : State :=
  { s with running := false, faultCause := some c, panicMessage := some c.message }

/-- How a handler ends: with its state, or, where it met a fault, with that fault raised in the state `s` it began in, so that none
of its effects is left (R114, R121). -/
def finish (s : State) (r : Except Cause State) : Host.Outcome State Fault Refusal :=
  match r with
  | .ok t => .next t
  | .error c => .next (s.raise c)

end Sys2Proof.Machine
end

