-- ==== Sys2Proof/Machine/Operands.lean ====
section
/-! DEFINITION. The operand resolver (R115 to R120). -/

namespace Sys2Proof.Machine

/-- The register a payload names, or the fault of a number above 5 (R85, R116). -/
def resolveReg (p : BitVec 14) : Except Cause Reg :=
  match regOfIndex p with
  | some r => .ok r
  | none => .error .regOutOfBounds

/-- `ResolveRead(f, wr)` (R116; immediates: R88; the address of an indirect operand: R117). -/
def resolveRead (s : State) (o : Operand) (w : Width) : Except Cause (BitVec w.bits) :=
  match o with
  | .imm p => .ok (p.setWidth w.bits)
  | .reg p =>
    match resolveReg p with
    | .error c => .error c
    | .ok r => .ok (s.regRead r w)
  | .mem p => s.memRead p.toNat w
  | .ind p =>
    match resolveReg p with
    | .error c => .error c
    | .ok r => s.memRead (s.regRead r w).toNat w

/-- Where a destination operand points (R118). -/
inductive Loc where
  | reg (r : Reg)
  | mem (a : Nat)
deriving DecidableEq, Repr

/-- A memory location, bounds-checked (R118). -/
def State.locAt (s : State) (a : Nat) (w : Width) : Except Cause Loc :=
  if s.inBounds a w.bytes then .ok (.mem a) else .error .memOutOfBounds

/-- `ResolveLoc(f, wr)` (R118). -/
def resolveLoc (s : State) (o : Operand) (w : Width) : Except Cause Loc :=
  match o with
  | .imm _ => .error .invalidWriteTarget
  | .reg p =>
    match resolveReg p with
    | .error c => .error c
    | .ok r => .ok (.reg r)
  | .mem p => s.locAt p.toNat w
  | .ind p =>
    match resolveReg p with
    | .error c => .error c
    | .ok r => s.locAt (s.regRead r w).toNat w

/-- `Store(loc, wr, v)` (R119). -/
def State.store (s : State) (l : Loc) (w : Width) (v : BitVec w.bits) : State :=
  match l with
  | .reg r => s.regWrite r w v
  | .mem a => s.putBytes a w v

/-- `ResolveWrite(f, wr, v)` (R119). -/
def resolveWrite (s : State) (o : Operand) (w : Width) (v : BitVec w.bits) : Except Cause State :=
  match resolveLoc s o w with
  | .error c => .error c
  | .ok l => .ok (s.store l w v)

end Sys2Proof.Machine
end

