-- ==== Sys2Proof/Machine/Arith.lean ====
section
/-! DEFINITION. Arithmetic and logic (R150 to R165). -/

namespace Sys2Proof.Machine

/-- The common shape: resolve `a`, then `b`, apply `op`, which may fault, resolve the destination, store (R150). -/
def binaryOp (w : Width) (op : BitVec w.bits → BitVec w.bits → Except Cause (BitVec w.bits)) (a b dst : Operand) (s : State) :
    Host.Outcome State Fault Refusal :=
  finish s <|
    match resolveRead s a w with
    | .error c => .error c
    | .ok x =>
      match resolveRead s b w with
      | .error c => .error c
      | .ok y =>
        match op x y with
        | .error c => .error c
        | .ok r => resolveWrite s dst w r

/-! ## The operators -/

/-- The sum modulo `2^W` (R151). -/
def aluAdd {n : Nat} (a b : BitVec n) : BitVec n := a + b

/-- The difference modulo `2^W` (R152). -/
def aluSub {n : Nat} (a b : BitVec n) : BitVec n := a - b

/-- The low `W` bits of the product (R153). -/
def aluMul {n : Nat} (a b : BitVec n) : BitVec n := a * b

/-- Unsigned division, the quotient's floor; a zero divisor faults (R154). -/
def aluUdiv {n : Nat} (a b : BitVec n) : Except Cause (BitVec n) :=
  if b = 0#n then .error .divideByZero else .ok (a / b)

/-- Signed division rounded toward zero and wrapped to `W` bits; a zero divisor faults (R155). -/
def aluIdiv {n : Nat} (a b : BitVec n) : Except Cause (BitVec n) :=
  if b = 0#n then .error .divideByZero else .ok (BitVec.ofInt n (a.toInt.tdiv b.toInt))

/-- A shift's count, `u(b) mod W` (R165). -/
def shiftCount {n : Nat} (b : BitVec n) : Nat := b.toNat % n

/-- Logical shift left (R156). -/
def aluShl {n : Nat} (a b : BitVec n) : BitVec n := a <<< shiftCount b

/-- Logical shift right (R157). -/
def aluShr {n : Nat} (a b : BitVec n) : BitVec n := a >>> shiftCount b

/-- Arithmetic shift left: the bits of `shl` (R158). -/
def aluSal {n : Nat} (a b : BitVec n) : BitVec n := a <<< shiftCount b

/-- Arithmetic shift right (R159). -/
def aluSar {n : Nat} (a b : BitVec n) : BitVec n := a.sshiftRight (shiftCount b)

/-- Bitwise and (R160). -/
def aluAnd {n : Nat} (a b : BitVec n) : BitVec n := a &&& b

/-- Bitwise or (R161). -/
def aluOr {n : Nat} (a b : BitVec n) : BitVec n := a ||| b

/-- Bitwise exclusive or (R162). -/
def aluXor {n : Nat} (a b : BitVec n) : BitVec n := a ^^^ b

/-! ## The instructions -/

/-- `add` (R151). -/
def execAdd (w : Width) (a b dst : Operand) (s : State) : Host.Outcome State Fault Refusal :=
  binaryOp w (fun x y => .ok (aluAdd x y)) a b dst s

/-- `sub` (R152). -/
def execSub (w : Width) (a b dst : Operand) (s : State) : Host.Outcome State Fault Refusal :=
  binaryOp w (fun x y => .ok (aluSub x y)) a b dst s

/-- `mul` (R153). -/
def execMul (w : Width) (a b dst : Operand) (s : State) : Host.Outcome State Fault Refusal :=
  binaryOp w (fun x y => .ok (aluMul x y)) a b dst s

/-- `udiv` (R154). -/
def execUdiv (w : Width) (a b dst : Operand) (s : State) : Host.Outcome State Fault Refusal :=
  binaryOp w aluUdiv a b dst s

/-- `idiv` (R155). -/
def execIdiv (w : Width) (a b dst : Operand) (s : State) : Host.Outcome State Fault Refusal :=
  binaryOp w aluIdiv a b dst s

/-- `shl` (R156). -/
def execShl (w : Width) (a b dst : Operand) (s : State) : Host.Outcome State Fault Refusal :=
  binaryOp w (fun x y => .ok (aluShl x y)) a b dst s

/-- `shr` (R157). -/
def execShr (w : Width) (a b dst : Operand) (s : State) : Host.Outcome State Fault Refusal :=
  binaryOp w (fun x y => .ok (aluShr x y)) a b dst s

/-- `sal` (R158). -/
def execSal (w : Width) (a b dst : Operand) (s : State) : Host.Outcome State Fault Refusal :=
  binaryOp w (fun x y => .ok (aluSal x y)) a b dst s

/-- `sar` (R159). -/
def execSar (w : Width) (a b dst : Operand) (s : State) : Host.Outcome State Fault Refusal :=
  binaryOp w (fun x y => .ok (aluSar x y)) a b dst s

/-- `and` (R160). -/
def execAnd (w : Width) (a b dst : Operand) (s : State) : Host.Outcome State Fault Refusal :=
  binaryOp w (fun x y => .ok (aluAnd x y)) a b dst s

/-- `or` (R161). -/
def execOr (w : Width) (a b dst : Operand) (s : State) : Host.Outcome State Fault Refusal :=
  binaryOp w (fun x y => .ok (aluOr x y)) a b dst s

/-- `xor` (R162). -/
def execXor (w : Width) (a b dst : Operand) (s : State) : Host.Outcome State Fault Refusal :=
  binaryOp w (fun x y => .ok (aluXor x y)) a b dst s

end Sys2Proof.Machine
end

