-- ==== Sys2Proof/Machine/Flags.lean ====
section
/-! DEFINITION. The flag computations of the compares (R231, R232) and the conditions of `jmp` (R191). -/

namespace Sys2Proof.Machine

/-- `equal` after a compare (R231, R232). -/
def compareEqual {n : Nat} (a b : BitVec n) : Bool := decide (a = b)

/-- `less` after `ucmp` (R231). -/
def compareLessUnsigned {n : Nat} (a b : BitVec n) : Bool := decide (a.toNat < b.toNat)

/-- `less` after `icmp` (R232). -/
def compareLessSigned {n : Nat} (a b : BitVec n) : Bool := decide (a.toInt < b.toInt)

/-- `Cond(cc, equal, less)`, none above 6 (R191). -/
def condition (cc : Word16) (equal less : Bool) : Option Bool :=
  match cc.toNat with
  | 0 => some true
  | 1 => some less
  | 2 => some (less || equal)
  | 3 => some equal
  | 4 => some (!equal)
  | 5 => some (!less && !equal)
  | 6 => some (!less)
  | _ => none

end Sys2Proof.Machine
end

