-- ==== Sys2Proof/Machine/Compare.lean ====
section
/-! DEFINITION. The compares (R230 to R232). -/

namespace Sys2Proof.Machine

/-- Resolve `a`, then `b`, and write both flags (R231). -/
def compareOp (w : Width) (less : BitVec w.bits → BitVec w.bits → Bool) (a b : Operand) (s : State) :
    Host.Outcome State Fault Refusal :=
  finish s <|
    match resolveRead s a w with
    | .error c => .error c
    | .ok x =>
      match resolveRead s b w with
      | .error c => .error c
      | .ok y => .ok (s.setFlags (compareEqual x y) (less x y))

/-- `ucmp` (R231). -/
def execUcmp (w : Width) (a b : Operand) (s : State) : Host.Outcome State Fault Refusal :=
  compareOp w compareLessUnsigned a b s

/-- `icmp` (R232). -/
def execIcmp (w : Width) (a b : Operand) (s : State) : Host.Outcome State Fault Refusal :=
  compareOp w compareLessSigned a b s

end Sys2Proof.Machine
end

