-- ==== Sys2Proof/Machine/Extend.lean ====
section
/-! DEFINITION. Sign and zero extension (R180 to R182). -/

namespace Sys2Proof.Machine

/-- The target width of a selector, a width code; none above 3 (R180, D13). -/
def targetWidth (sel : Word16) : Option Width :=
  if sel.toNat ≤ 3 then some (widthOfCode (sel.extractLsb' 0 2)) else none

/-- Zero-extended, or cut to its low bytes (R181). -/
def extendZero (w tw : Width) (a : BitVec w.bits) : BitVec tw.bits := a.setWidth tw.bits

/-- Sign-extended, or cut to its low bytes (R182). -/
def extendSign (w tw : Width) (a : BitVec w.bits) : BitVec tw.bits :=
  if w.bytes < tw.bytes then a.signExtend tw.bits else a.setWidth tw.bits

/-- The common shape: the selector is checked first, the source is read at `w`, the destination is written at `tw` (R180). -/
def extendOp (ext : (w tw : Width) → BitVec w.bits → BitVec tw.bits) (w : Width) (src dst : Operand) (sel : Word16)
    (s : State) : Host.Outcome State Fault Refusal :=
  finish s <|
    match targetWidth sel with
    | none => .error .invalidExtendWidth
    | some tw =>
      match resolveRead s src w with
      | .error c => .error c
      | .ok a => resolveWrite s dst tw (ext w tw a)

/-- `sxu` (R181). -/
def execSxu (w : Width) (src dst : Operand) (sel : Word16) (s : State) : Host.Outcome State Fault Refusal :=
  extendOp extendZero w src dst sel s

/-- `sxi` (R182). -/
def execSxi (w : Width) (src dst : Operand) (sel : Word16) (s : State) : Host.Outcome State Fault Refusal :=
  extendOp extendSign w src dst sel s

end Sys2Proof.Machine
end

