-- ==== Sys2Proof/Machine/Jump.lean ====
section
/-! DEFINITION. The jump (R190 to R192). -/

namespace Sys2Proof.Machine

/-- `jmp`: the condition code is checked, the target is resolved whether or not the jump is taken, and `pc` is written if it is
(R190). The width code is ignored (R83). -/
def execJmp (_w : Width) (cc : Word16) (target : Operand) (s : State) : Host.Outcome State Fault Refusal :=
  finish s <|
    match condition cc s.equal s.less with
    | none => .error .invalidJumpCondition
    | some taken =>
      match resolveRead s target Config.ptr with
      | .error c => .error c
      | .ok t => .ok (if taken then s.setPc t else s)

end Sys2Proof.Machine
end

