-- ==== Sys2Proof/Machine/Move.lean ====
section
/-! DEFINITION. Data movement: `mov` (R140), and the source-to-destination shape it shares with the unary family (R170). -/

namespace Sys2Proof.Machine

/-- Resolve the source, apply `op`, resolve the destination, store, all at one width (R140, R170). -/
def sourceToDest (w : Width) (op : BitVec w.bits → BitVec w.bits) (src dst : Operand) (s : State) :
    Host.Outcome State Fault Refusal :=
  finish s <|
    match resolveRead s src w with
    | .error c => .error c
    | .ok a => resolveWrite s dst w (op a)

/-- `mov` (R140). -/
def execMov (w : Width) (src dst : Operand) (s : State) : Host.Outcome State Fault Refusal :=
  sourceToDest w id src dst s

end Sys2Proof.Machine
end

