-- ==== Sys2Proof/Machine/Stack.lean ====
section
/-! DEFINITION. Stack and subroutine instructions (R200 to R206). The stack grows upward; `sp` arithmetic is modulo `2^16` (R27). -/

namespace Sys2Proof.Machine

/-- `stks` (R200). The width code is ignored (R83). -/
def execStks (_w : Width) (src : Operand) (s : State) : Host.Outcome State Fault Refusal :=
  finish s <|
    match resolveRead s src Config.ptr with
    | .error c => .error c
    | .ok v => .ok (s.setSp v)

/-- A value written at `sp`, which then rises past it (R201, R203). -/
def pushValue (s : State) (w : Width) (v : BitVec w.bits) : Except Cause State :=
  match s.memWrite s.sp.toNat w v with
  | .error c => .error c
  | .ok t => .ok (t.setSp (s.sp + BitVec.ofNat 16 w.bytes))

/-- `push` (R201). -/
def execPush (w : Width) (src : Operand) (s : State) : Host.Outcome State Fault Refusal :=
  finish s <|
    match resolveRead s src w with
    | .error c => .error c
    | .ok v => pushValue s w v

/-- `pop`: the stack pointer is lowered, the value read, the destination resolved with the lowered stack pointer, the value stored
(R202). A fault undoes the lowering, since `finish` raises it in `s` (R121). -/
def execPop (w : Width) (dst : Operand) (s : State) : Host.Outcome State Fault Refusal :=
  let a := s.sp - BitVec.ofNat 16 w.bytes
  finish s <|
    match s.memRead a.toNat w with
    | .error c => .error c
    | .ok v => resolveWrite (s.setSp a) dst w v

/-- `call`: the target is resolved before the return address is pushed (R203). The width code is ignored (R83). -/
def execCall (_w : Width) (target : Operand) (s : State) : Host.Outcome State Fault Refusal :=
  finish s <|
    match resolveRead s target Config.ptr with
    | .error c => .error c
    | .ok t =>
      match pushValue s Config.ptr s.pc with
      | .error c => .error c
      | .ok u => .ok (u.setPc t)

/-- `ret`: the count is unsigned, at the instruction width, taken modulo `2^16` (R204). -/
def execRet (w : Width) (count : Operand) (s : State) : Host.Outcome State Fault Refusal :=
  finish s <|
    match resolveRead s count w with
    | .error c => .error c
    | .ok n =>
      let a1 := s.sp - n.setWidth 16
      let a2 := a1 - BitVec.ofNat 16 Config.ptr.bytes
      match s.memRead a2.toNat Config.ptr with
      | .error c => .error c
      | .ok ra => .ok ((s.setSp a2).setPc ra)

end Sys2Proof.Machine
end

