-- ==== Sys2Proof/Machine/System.lean ====
section
/-! DEFINITION. Halt and host I/O (R220 to R223). -/

namespace Sys2Proof.Machine

/-- `halt`: the fault mechanism with the cause `Halt` (R220). The width code is ignored (R83). -/
def execHalt (_w : Width) (s : State) : Host.Outcome State Fault Refusal :=
  .next (s.raise .halt)

/-- `getc_`: the destination is resolved at width 1 before any input is taken; while the host has answered neither with a byte nor
with end-of-stream the step is not enabled (R221, U11, log 4). The width code is ignored (R83). -/
def execGetc (_w : Width) (dst : Operand) (s : State) : Host.Outcome State Fault Refusal :=
  match resolveLoc s dst .w1 with
  | .error c => .next (s.raise c)
  | .ok l =>
    match s.nextInput with
    | none => .fault .awaitingInput
    | some (b, t) => .next (t.store l .w1 b)

/-- `putc_`: the low byte of the source is emitted (R222). -/
def execPutc (w : Width) (src : Operand) (s : State) : Host.Outcome State Fault Refusal :=
  finish s <|
    match resolveRead s src w with
    | .error c => .error c
    | .ok v => .ok (s.emit (v.setWidth 8))

end Sys2Proof.Machine
end

