-- ==== Sys2Proof/Machine/Unary.lean ====
section
/-! DEFINITION. The unary family (R170 to R174). -/

namespace Sys2Proof.Machine

/-- Two's complement negation (R171). -/
def unaryNeg {n : Nat} (a : BitVec n) : BitVec n := -a

/-- Unary plus: the operand itself (R172). -/
def unaryPos {n : Nat} (a : BitVec n) : BitVec n := a

/-- Logical not: 1 for zero, else 0 (R173). -/
def unaryLnot {n : Nat} (a : BitVec n) : BitVec n := if a = 0#n then 1#n else 0#n

/-- Bitwise complement (R174). -/
def unaryBnot {n : Nat} (a : BitVec n) : BitVec n := ~~~a

/-- `neg` (R171). -/
def execNeg (w : Width) (src dst : Operand) (s : State) : Host.Outcome State Fault Refusal :=
  sourceToDest w unaryNeg src dst s

/-- `pos` (R172). -/
def execPos (w : Width) (src dst : Operand) (s : State) : Host.Outcome State Fault Refusal :=
  sourceToDest w unaryPos src dst s

/-- `lnot` (R173). -/
def execLnot (w : Width) (src dst : Operand) (s : State) : Host.Outcome State Fault Refusal :=
  sourceToDest w unaryLnot src dst s

/-- `bnot` (R174). -/
def execBnot (w : Width) (src dst : Operand) (s : State) : Host.Outcome State Fault Refusal :=
  sourceToDest w unaryBnot src dst s

end Sys2Proof.Machine
end

