-- ==== Sys2Proof/Machine/Dispatch.lean ====
section
/-! DEFINITION. The dispatch: one arm per instruction, by its opcode alone (R112). -/

namespace Sys2Proof.Machine

def exec (i : Instr) (s : State) : Host.Outcome State Fault Refusal :=
  match i with
  | .mov w src dst => Sys2Proof.Machine.execMov w src dst s
  | .add w a b dst => Sys2Proof.Machine.execAdd w a b dst s
  | .sub w a b dst => Sys2Proof.Machine.execSub w a b dst s
  | .mul w a b dst => Sys2Proof.Machine.execMul w a b dst s
  | .udiv w a b dst => Sys2Proof.Machine.execUdiv w a b dst s
  | .idiv w a b dst => Sys2Proof.Machine.execIdiv w a b dst s
  | .shl w a b dst => Sys2Proof.Machine.execShl w a b dst s
  | .shr w a b dst => Sys2Proof.Machine.execShr w a b dst s
  | .sal w a b dst => Sys2Proof.Machine.execSal w a b dst s
  | .sar w a b dst => Sys2Proof.Machine.execSar w a b dst s
  | .and w a b dst => Sys2Proof.Machine.execAnd w a b dst s
  | .or w a b dst => Sys2Proof.Machine.execOr w a b dst s
  | .xor w a b dst => Sys2Proof.Machine.execXor w a b dst s
  | .neg w src dst => Sys2Proof.Machine.execNeg w src dst s
  | .pos w src dst => Sys2Proof.Machine.execPos w src dst s
  | .lnot w src dst => Sys2Proof.Machine.execLnot w src dst s
  | .bnot w src dst => Sys2Proof.Machine.execBnot w src dst s
  | .sxu w src dst sel => Sys2Proof.Machine.execSxu w src dst sel s
  | .sxi w src dst sel => Sys2Proof.Machine.execSxi w src dst sel s
  | .jmp w cc target => Sys2Proof.Machine.execJmp w cc target s
  | .stks w src => Sys2Proof.Machine.execStks w src s
  | .push w src => Sys2Proof.Machine.execPush w src s
  | .pop w dst => Sys2Proof.Machine.execPop w dst s
  | .call w target => Sys2Proof.Machine.execCall w target s
  | .ret w count => Sys2Proof.Machine.execRet w count s
  | .halt w => Sys2Proof.Machine.execHalt w s
  | .getc_ w dst => Sys2Proof.Machine.execGetc w dst s
  | .putc_ w src => Sys2Proof.Machine.execPutc w src s
  | .ucmp w a b => Sys2Proof.Machine.execUcmp w a b s
  | .icmp w a b => Sys2Proof.Machine.execIcmp w a b s

end Sys2Proof.Machine
end

