-- ==== Sys2Proof/Machine/Fetch.lean ====
section
/-! DEFINITION. The fetch stage of a step (R111, R113), and bytes placed where it will read them. -/

namespace Sys2Proof.Machine

/-- The state once `n` bytes of an instruction are fetched, the opcode byte among them: `cycles` counts it and `pc` is past them,
modulo `2^16` (R25, R111). -/
def State.afterFetch (s : State) (n : Nat) : State := s.countCycle.setPc (s.pc + BitVec.ofNat 16 n)

/-- `FetchField()`: the big-endian field at `pc`, which then points past it; none where its two bytes are not inside memory (R113). -/
def fetchField (s : State) : Option (Word16 × State) :=
  let a := s.pc.toNat
  if s.inBounds a 2 then
    some (fieldOfBytes (s.mem.read a) (s.mem.read (a + 1)), s.setPc (s.pc + 2#16))
  else none

/-- `k` fields, in address order. Where one cannot be read the error is the fault raised in the state of that moment: `pc` keeps
the advances made so far (R113, R121). -/
def fetchFields : Nat → State → Except State (List Word16 × State)
  | 0, s => .ok ([], s)
  | k + 1, s =>
    match fetchField s with
    | none => .error (s.raise .memOutOfBounds)
    | some (f, t) =>
      match fetchFields k t with
      | .error u => .error u
      | .ok (fs, u) => .ok (f :: fs, u)

/-- The fetch stage: the instruction at `pc` and the state its handler begins in, or the state a fault of the stage leaves
(R111, points 1 to 5). -/
def fetch (s : State) : Except State (Instr × State) :=
  if s.inBounds s.pc.toNat 1 then
    let b := s.mem.read s.pc.toNat
    let t := s.afterFetch 1
    match mnemonicOfByte b with
    | none => .error (t.raise .decodeFault)
    | some m =>
      match fetchFields m.fieldCount t with
      | .error u => .error u
      | .ok (fs, u) => .ok (assemble m (widthOfByte b) fs, u)
  else .error (s.raise .memOutOfBounds)

/-- Bytes stored from `a` on, `a` wrapping modulo `2^16` as `pc` does; a byte whose address is not inside memory is left out
(R25). DESIGN CHOICE, safe (log 8). -/
def State.placeAt (s : State) (a : Word16) : List Byte → State
  | [] => s
  | b :: bs =>
    let t := if s.inBounds a.toNat 1 then { s with mem := s.mem.write a.toNat b } else s
    t.placeAt (a + 1#16) bs

end Sys2Proof.Machine
end

