-- ==== Sys2Proof/Machine/Step.lean ====
section
/-! DEFINITION. One step of the machine (R110, R111). -/

namespace Sys2Proof.Machine

/-- A HALTED machine has no step (R110). A RUNNING one fetches and runs one instruction, or takes the fault its fetch met (R111). -/
def step (s : State) : Host.Outcome State Fault Refusal :=
  match s.running with
  | false => .fault .halted
  | true =>
    match fetch s with
    | .error t => .next t
    | .ok (i, t) => exec i t

/-- The state with an instruction, given as the opcode table numbers its bits, stored at `pc`, where the next step fetches it
(log 8). -/
def State.withFetchWord (s : State) (nbits w : Nat) : State := s.placeAt s.pc (tableBytes nbits w)

end Sys2Proof.Machine
end

