-- ==== Sys2Proof/Machine/HostPort.lean ====
section
/-! DEFINITION. What the host does to the machine outside a step: construct, load, supply input, read the report
(R40 to R43, R270, R271, R275). -/

namespace Sys2Proof.Machine

/-- Construction at a capacity of 1 to 65536 bytes; any other capacity makes no machine (R6, R270, R275). DESIGN CHOICE, safe (log 11).
DEDUCED, safe: a new machine's input stream is open and the host has yet to supply its bytes and declare its end (R42, log 3). -/
def construct (memSize : Nat) : Option State :=
  if 1 ≤ memSize ∧ memSize ≤ Config.maxMemSize then some { State.reset with memSize := memSize } else none

/-- `Load(image)`: the bytes verbatim from offset 0 on; an image longer than memory is not accepted (R40, R271, U8).
DESIGN CHOICE, safe (log 11). -/
def State.load (s : State) (image : List Byte) : Option State :=
  if image.length ≤ s.memSize then some { s with mem := s.mem.writeBytes 0 image } else none

/-- The host hands over more bytes of its stream, which it may do until it declares the stream's end (R42, R275).
DESIGN CHOICE, safe: bytes supplied after the end are not taken (log 11). -/
def State.supplyInput (s : State) (bs : List Byte) : State :=
  if s.inputEnded then s else { s with input := s.input ++ bs }

/-- The host declares end-of-stream, after the bytes supplied so far (R42, R275). -/
def State.closeInput (s : State) : State := { s with inputEnded := true }

/-- What the core reports on halt (R41). -/
structure Report where
  faulted : Bool
  message : Option String
  cycles : Nat
deriving DecidableEq, Repr

/-- `faulted = (fault_cause is present and fault_cause != Halt)` (R41). -/
def State.faulted (s : State) : Bool :=
  match s.faultCause with
  | none => false
  | some c => decide (c ≠ .halt)

/-- The status interface (R41): meaningful once the machine is HALTED. -/
def State.report (s : State) : Report := ⟨s.faulted, s.panicMessage, s.cycles⟩

end Sys2Proof.Machine
end

