-- ==== Sys2Proof/Safety.lean ====
section
/-! DEFINITION. The words claims are stated in: the invariant of the machine, what counts as a good run, and what of a state an
instruction may change. -/

namespace Sys2Proof.Machine

/-! ## The invariant -/

/-- The capacity is one R6 allows. -/
abbrev State.CapacityOk (s : State) : Prop := 1 ≤ s.memSize ∧ s.memSize ≤ Config.maxMemSize

/-- Memory is in canonical form and lists no address outside `0 .. MEM_SIZE-1` (R34). -/
abbrev State.MemoryOk (s : State) : Prop := s.mem.wf ∧ s.mem.below s.memSize

/-- A cause is recorded exactly when the machine is HALTED, and the message is the cause's (R32, R33). -/
abbrev State.StatusOk (s : State) : Prop :=
  (s.running = true ↔ s.faultCause = none) ∧ s.panicMessage = s.faultCause.map Cause.message

/-- No more input is consumed than the host supplied (R37). -/
abbrev State.InputOk (s : State) : Prop := s.inPos ≤ s.input.length

/-- The invariant every step keeps. -/
abbrev State.Inv (s : State) : Prop := s.CapacityOk ∧ s.MemoryOk ∧ s.StatusOk ∧ s.InputOk

/-- A final good state: halted by `halt` (R123, R247). -/
abbrev State.EndedNormally (s : State) : Prop := s.running = false ∧ s.faultCause = some .halt

/-- The host has answered neither with a byte nor with end-of-stream, so a `getc_` waits (R261, U11). -/
abbrev State.InputBlocked (s : State) : Prop := s.input.length ≤ s.inPos ∧ s.inputEnded = false

/-! ## What stays and what is written -/

/-- Every byte of memory reads as before. -/
def SameMemory (s t : State) : Prop := ∀ a, t.mem.read a = s.mem.read a

/-- Both flags are as before. -/
def SameFlags (s t : State) : Prop := t.equal = s.equal ∧ t.less = s.less

/-- The capacity, the cycle counter and the run/halt status are as before. -/
def SameStatus (s t : State) : Prop :=
  t.memSize = s.memSize ∧ t.cycles = s.cycles ∧ t.running = s.running ∧ t.panicMessage = s.panicMessage ∧
    t.faultCause = s.faultCause

/-- The host streams are as before. -/
def SameStreams (s t : State) : Prop :=
  t.input = s.input ∧ t.inputEnded = s.inputEnded ∧ t.inPos = s.inPos ∧ t.output = s.output

/-- Of the registers, exactly the low `w` bytes of `r` are replaced, by `v` (R22). -/
def RegWritten (s t : State) (r : Reg) (w : Width) (v : BitVec w.bits) : Prop :=
  t.regRead r w = v ∧ (∀ k, w.bits ≤ k → (t.regs.get r).getLsbD k = (s.regs.get r).getLsbD k) ∧
    ∀ q, q ≠ r → t.regs.get q = s.regs.get q

/-- Of memory, exactly the `w` bytes from `a` on are replaced, by those of `v`, the lowest first (R52). -/
def BytesWritten (s t : State) (a : Nat) (w : Width) (v : BitVec w.bits) : Prop :=
  (∀ k, k < w.bytes → t.mem.read (a + k) = v.extractLsb' (8 * k) 8) ∧
    ∀ b, b < a ∨ a + w.bytes ≤ b → t.mem.read b = s.mem.read b

/-- Of registers and memory, exactly the `w` bytes at a location are replaced, by `v` (R119). -/
def LocWritten (s t : State) (l : Loc) (w : Width) (v : BitVec w.bits) : Prop :=
  match l with
  | .reg r => RegWritten s t r w v ∧ SameMemory s t
  | .mem a => BytesWritten s t a w v ∧ t.regs = s.regs

/-- Of the whole state, exactly the `w` bytes at a location are replaced, by `v`. -/
def StoredOnly (s t : State) (l : Loc) (w : Width) (v : BitVec w.bits) : Prop :=
  LocWritten s t l w v ∧ SameFlags s t ∧ SameStatus s t ∧ SameStreams s t

/-- Of the registers, only those of the list differ, and those only in their low 16 bits (R26, R27). -/
def OnlyLow16 (rs : List Reg) (s t : State) : Prop :=
  (∀ r, r ∉ rs → t.regs.get r = s.regs.get r) ∧
    ∀ r k, 16 ≤ k → (t.regs.get r).getLsbD k = (s.regs.get r).getLsbD k

/-! ## What an instruction names -/

/-- The destination operand of an instruction with the width it is written at; none where it has none, and none for an extend whose
selector is out of range. -/
def destination : Instr → Option (Operand × Width)
  | .mov w _ dst | .neg w _ dst | .pos w _ dst | .lnot w _ dst | .bnot w _ dst => some (dst, w)
  | .add w _ _ dst | .sub w _ _ dst | .mul w _ _ dst | .udiv w _ _ dst | .idiv w _ _ dst | .shl w _ _ dst | .shr w _ _ dst
  | .sal w _ _ dst | .sar w _ _ dst | .and w _ _ dst | .or w _ _ dst | .xor w _ _ dst => some (dst, w)
  | .sxu _ _ dst sel | .sxi _ _ dst sel => (targetWidth sel).map fun tw => (dst, tw)
  | .pop w dst => some (dst, w)
  | .getc_ _ dst => some (dst, .w1)
  | .jmp .. | .stks .. | .push .. | .call .. | .ret .. | .halt .. | .putc_ .. | .ucmp .. | .icmp .. => none

/-- Bit `k` of a register lies in the register-direct destination of the instruction. -/
def NamesRegBit (i : Instr) (r : Reg) (k : Nat) : Prop :=
  ∃ p w, destination i = some (.reg p, w) ∧ regOfIndex p = some r ∧ k < w.bits

/-- The instructions that use the stack pointer of their own accord (R23). -/
def movesSp : Instr → Bool
  | .stks .. | .push .. | .pop .. | .call .. | .ret .. => true
  | _ => false

/-- The instructions that write the program counter of their own accord (R23). -/
def movesPc : Instr → Bool
  | .jmp .. | .call .. | .ret .. => true
  | _ => false

/-- The state an instruction resolves its destination in: for `pop`, with the stack pointer already lowered (R202). -/
def destinationState : Instr → State → State
  | .pop w _, s => s.setSp (s.sp - BitVec.ofNat 16 w.bytes)
  | _, s => s

/-- The memory an instruction stores to, as a first address and a number of bytes: its destination's, or the stack slot of `push` and
`call`. -/
def storeRange (i : Instr) (s : State) : Option (Nat × Nat) :=
  match i with
  | .push w _ => some (s.sp.toNat, w.bytes)
  | .call _ _ => some (s.sp.toNat, Config.ptr.bytes)
  | i =>
    match destination i with
    | none => none
    | some (dst, w) =>
      match resolveLoc (destinationState i s) dst w with
      | .ok (.mem a) => some (a, w.bytes)
      | _ => none

/-- Two states that differ in nothing a program can observe: everything but the cycle counter, the recorded message and cause, and the
output (R30, R31, R37). -/
def SameToProgram (s t : State) : Prop :=
  t.regs = s.regs ∧ t.mem = s.mem ∧ t.memSize = s.memSize ∧ t.equal = s.equal ∧ t.less = s.less ∧ t.running = s.running ∧
    t.input = s.input ∧ t.inputEnded = s.inputEnded ∧ t.inPos = s.inPos

end Sys2Proof.Machine
end

