-- ==== Sys2Proof/Certificates/Slice0/Obligations.lean ====
section
/-! DEFINITION. The statements for the provers, with the shapes several of them share. Where a docstring names a decision D<n>, the
clause is the spec's own choice, not its source's (spec/92_eei_decisions.md). -/

open Sys2Proof Sys2Proof.Machine

namespace Sys2Proof.Machine

/-! ## Shapes -/

/-- The encoding of an instruction: its opcode byte is `index + 0x40 * wc`, where the width code `wc` selects its width, and its
fields follow, each high byte first. -/
def HasEncoding (i : Instr) (index : Nat) (fs : List Word16) : Prop :=
  ∃ wc, i.width.bytes = 2 ^ wc ∧ encode i = BitVec.ofNat 8 (index + 0x40 * wc) :: fieldBytes fs

/-- The number of a register (R21). -/
def regNumber : Reg → Nat
  | .aaa => 0
  | .bbb => 1
  | .stk => 2
  | .bsp => 3
  | .acc => 4
  | .cur => 5

/-- The rule of an instruction that resolves a source, then a destination, both at its width, and stores `r` with `R w a r` there: its
encoding, its faults in order, and, for every operand form that resolves, that it completes having written the destination only. -/
def SourceToDestRule (mk : Width → Operand → Operand → Instr) (index : Nat)
    (R : (w : Width) → BitVec w.bits → BitVec w.bits → Prop) : Prop :=
  ∀ (w : Width) (src dst : Operand) (s : State),
    HasEncoding (mk w src dst) index [src.toField, dst.toField] ∧
    (∀ c, resolveRead s src w = .error c → exec (mk w src dst) s = .next (s.raise c)) ∧
    (∀ a c, resolveRead s src w = .ok a → resolveLoc s dst w = .error c → exec (mk w src dst) s = .next (s.raise c)) ∧
    (∀ a l, resolveRead s src w = .ok a → resolveLoc s dst w = .ok l →
      ∃ r t, R w a r ∧ exec (mk w src dst) s = .next t ∧ StoredOnly s t l w r)

/-- The rule of a three-operand instruction that cannot fault of its own (R150), with the result `r` such that `R w a b r`. -/
def BinaryRule (mk : Width → Operand → Operand → Operand → Instr) (index : Nat)
    (R : (w : Width) → BitVec w.bits → BitVec w.bits → BitVec w.bits → Prop) : Prop :=
  ∀ (w : Width) (a b dst : Operand) (s : State),
    HasEncoding (mk w a b dst) index [a.toField, b.toField, dst.toField] ∧
    (∀ c, resolveRead s a w = .error c → exec (mk w a b dst) s = .next (s.raise c)) ∧
    (∀ x c, resolveRead s a w = .ok x → resolveRead s b w = .error c → exec (mk w a b dst) s = .next (s.raise c)) ∧
    (∀ x y c, resolveRead s a w = .ok x → resolveRead s b w = .ok y → resolveLoc s dst w = .error c →
      exec (mk w a b dst) s = .next (s.raise c)) ∧
    (∀ x y l, resolveRead s a w = .ok x → resolveRead s b w = .ok y → resolveLoc s dst w = .ok l →
      ∃ r t, R w x y r ∧ exec (mk w a b dst) s = .next t ∧ StoredOnly s t l w r)

/-- The rule of a division (R154, R155): as `BinaryRule`, but a zero divisor faults before the destination is resolved. -/
def DivisionRule (mk : Width → Operand → Operand → Operand → Instr) (index : Nat)
    (R : (w : Width) → BitVec w.bits → BitVec w.bits → BitVec w.bits → Prop) : Prop :=
  ∀ (w : Width) (a b dst : Operand) (s : State),
    HasEncoding (mk w a b dst) index [a.toField, b.toField, dst.toField] ∧
    (∀ c, resolveRead s a w = .error c → exec (mk w a b dst) s = .next (s.raise c)) ∧
    (∀ x c, resolveRead s a w = .ok x → resolveRead s b w = .error c → exec (mk w a b dst) s = .next (s.raise c)) ∧
    (∀ x y, resolveRead s a w = .ok x → resolveRead s b w = .ok y → y.toNat = 0 →
      exec (mk w a b dst) s = .next (s.raise .divideByZero)) ∧
    (∀ x y c, resolveRead s a w = .ok x → resolveRead s b w = .ok y → y.toNat ≠ 0 → resolveLoc s dst w = .error c →
      exec (mk w a b dst) s = .next (s.raise c)) ∧
    (∀ x y l, resolveRead s a w = .ok x → resolveRead s b w = .ok y → y.toNat ≠ 0 → resolveLoc s dst w = .ok l →
      ∃ r t, R w x y r ∧ exec (mk w a b dst) s = .next t ∧ StoredOnly s t l w r)

/-- The rule of an extend (R180): the selector is checked first and is a width code, `tw = 2 ^ sel` bytes; the source is read at `w`,
the destination resolved and written at `tw`. -/
def ExtendRule (mk : Width → Operand → Operand → Word16 → Instr) (index : Nat)
    (R : (w tw : Width) → BitVec w.bits → BitVec tw.bits → Prop) : Prop :=
  ∀ (w : Width) (src dst : Operand) (sel : Word16) (s : State),
    HasEncoding (mk w src dst sel) index [src.toField, dst.toField, sel] ∧
    (3 < sel.toNat → exec (mk w src dst sel) s = .next (s.raise .invalidExtendWidth)) ∧
    ∀ tw : Width, tw.bytes = 2 ^ sel.toNat →
      (∀ c, resolveRead s src w = .error c → exec (mk w src dst sel) s = .next (s.raise c)) ∧
      (∀ a c, resolveRead s src w = .ok a → resolveLoc s dst tw = .error c →
        exec (mk w src dst sel) s = .next (s.raise c)) ∧
      (∀ a l, resolveRead s src w = .ok a → resolveLoc s dst tw = .ok l →
        ∃ r t, R w tw a r ∧ exec (mk w src dst sel) s = .next t ∧ StoredOnly s t l tw r)

/-- The rule of a compare (R231, R232), with `L w a b` the order its `less` records. -/
def CompareRule (mk : Width → Operand → Operand → Instr) (index : Nat)
    (L : (w : Width) → BitVec w.bits → BitVec w.bits → Prop) : Prop :=
  ∀ (w : Width) (a b : Operand) (s : State),
    HasEncoding (mk w a b) index [a.toField, b.toField] ∧
    (∀ c, resolveRead s a w = .error c → exec (mk w a b) s = .next (s.raise c)) ∧
    (∀ x c, resolveRead s a w = .ok x → resolveRead s b w = .error c → exec (mk w a b) s = .next (s.raise c)) ∧
    (∀ x y, resolveRead s a w = .ok x → resolveRead s b w = .ok y →
      ∃ t, exec (mk w a b) s = .next t ∧ (t.equal = true ↔ x.toNat = y.toNat) ∧ (t.less = true ↔ L w x y) ∧
        t.regs = s.regs ∧ SameMemory s t ∧ SameStatus s t ∧ SameStreams s t)

/-- The seven conditions of `jmp` (R191). -/
def ConditionHolds (cc : Nat) (equal less : Bool) : Prop :=
  cc = 0 ∨ (cc = 1 ∧ less = true) ∨ (cc = 2 ∧ (less = true ∨ equal = true)) ∨ (cc = 3 ∧ equal = true) ∨
    (cc = 4 ∧ equal = false) ∨ (cc = 5 ∧ less = false ∧ equal = false) ∨ (cc = 6 ∧ less = false)

/-- The byte `k` places past `pc`, as fetch counts them, modulo `2^16` (R25). -/
def codeAt (s : State) (k : Nat) : Byte := s.mem.read (s.pc + BitVec.ofNat 16 k).toNat

/-- The first `n` bytes of the instruction at `pc`. -/
def codeBytes (s : State) (n : Nat) : List Byte := (List.range n).map (codeAt s)

/-- The field `j` (from 0) of the instruction at `pc` lies inside memory (R113). -/
def FieldReadable (s : State) (j : Nat) : Prop := (s.pc + BitVec.ofNat 16 (1 + 2 * j)).toNat + 2 ≤ s.memSize

/-- The causes an instruction's handler can raise (R241). -/
def mayRaise : Instr → List Cause
  | .mov .. | .neg .. | .pos .. | .lnot .. | .bnot .. => [.memOutOfBounds, .regOutOfBounds, .invalidWriteTarget]
  | .add .. | .sub .. | .mul .. | .shl .. | .shr .. | .sal .. | .sar .. | .and .. | .or .. | .xor .. =>
    [.memOutOfBounds, .regOutOfBounds, .invalidWriteTarget]
  | .udiv .. | .idiv .. => [.memOutOfBounds, .regOutOfBounds, .invalidWriteTarget, .divideByZero]
  | .sxu .. | .sxi .. => [.memOutOfBounds, .regOutOfBounds, .invalidWriteTarget, .invalidExtendWidth]
  | .jmp .. => [.memOutOfBounds, .regOutOfBounds, .invalidJumpCondition]
  | .stks .. | .putc_ .. | .push .. | .call .. | .ret .. | .ucmp .. | .icmp .. => [.memOutOfBounds, .regOutOfBounds]
  | .pop .. | .getc_ .. => [.memOutOfBounds, .regOutOfBounds, .invalidWriteTarget]
  | .halt .. => [.halt]

end Sys2Proof.Machine

/-! ## Reset, invariant, run -/

/-- R44, D24: the reset state, every register, flag, status, stream and byte of memory. That the host has supplied no input
and declared no end-of-stream yet, and the capacity 65536, are the model's (log 3, log 1). -/
def Obligations.ResetState : Prop :=
  (∀ r, State.reset.regs.get r = 0#64) ∧ State.reset.pc = 0#16 ∧ State.reset.sp = 0#16 ∧
    (∀ a, State.reset.mem.read a = 0x00#8) ∧ State.reset.equal = false ∧ State.reset.less = false ∧
    State.reset.cycles = 0 ∧ State.reset.running = true ∧ State.reset.panicMessage = none ∧ State.reset.faultCause = none ∧
    State.reset.inPos = 0 ∧ State.reset.output = [] ∧ State.reset.input = [] ∧ State.reset.inputEnded = false ∧
    State.reset.memSize = 65536

/-- R6, R42, R44, R271: the reset state meets the invariant, at every capacity a machine can be constructed with; every image loaded,
every input byte supplied and the declared end of the input keep it. A machine can be constructed exactly at the capacities of R6, and its
input stream is then open and empty (log 3, log 11). -/
def Obligations.ResetAndLoadMeetInvariant : Prop :=
  State.reset.Inv ∧
    (∀ n : Nat, (1 ≤ n ∧ n ≤ 65536) ↔ ∃ s, construct n = some s) ∧
    (∀ (n : Nat) (s : State), construct n = some s → s.Inv ∧ s.memSize = n ∧ s.input = [] ∧ s.inputEnded = false ∧ s.inPos = 0) ∧
    (∀ (s t : State) (image : List Byte), s.Inv → s.load image = some t → t.Inv) ∧
    (∀ (s : State) (bs : List Byte), s.Inv → (s.supplyInput bs).Inv) ∧ ∀ s : State, s.Inv → s.closeInput.Inv

/-- The invariant, kept by every step: the capacity stays legal, memory canonical and inside `MEM_SIZE` (R34), a cause is recorded
exactly when HALTED, with its message (R32, R33), and no more input is consumed than there is (R37). -/
def Obligations.StepKeepsInvariant : Prop :=
  ∀ s t : State, s.Inv → step s = .next t → t.Inv

/-- R110: after reset the machine is RUNNING; HALTED has no transition; a RUNNING step leaves the machine RUNNING, or HALTED with the
cause of its fault or of `halt`. U20: that 'no transition' is a step that answers no state, the stop `.halted`,
is the model's form of it (log 5). -/
def Obligations.HaltedIsTerminalAndRunningSteps : Prop :=
  State.reset.running = true ∧
  (∀ s : State, s.running = false → step s = .fault .halted) ∧
    ∀ s t : State, s.running = true → s.faultCause = none → step s = .next t →
      (t.running = true ∧ t.faultCause = none) ∨ (t.running = false ∧ ∃ c, t.faultCause = some c)

/-- R278: every step of a RUNNING machine completes, but a `getc_` whose destination resolves while the host has not answered; there the
step answers no state, the model's form of waiting (log 4). -/
def Obligations.RunningStepCompletesUnlessInputBlocked : Prop :=
  ∀ s : State, s.running = true →
    (∃ t, step s = .next t) ∨
      (step s = .fault .awaitingInput ∧ s.InputBlocked ∧ (codeAt s 0).toNat % 64 = 26)

/-- R121, R242, D21: a step that ends HALTED has changed only the run/halt status, `pc` by at most 7, and `cycles` by at most one. -/
def Obligations.FaultsArePrecise : Prop :=
  ∀ s t : State, s.running = true → step s = .next t → t.running = false →
    ∃ c, t.faultCause = some c ∧ t.panicMessage = some c.message ∧ t.mem = s.mem ∧ SameFlags s t ∧ SameStreams s t ∧
      t.memSize = s.memSize ∧ OnlyLow16 [.cur] s t ∧ (∃ n, n ≤ 7 ∧ t.pc = s.pc + BitVec.ofNat 16 n) ∧
      (t.cycles = s.cycles + 1 ∨
        (t.cycles = s.cycles ∧ t.regs = s.regs ∧ c = .memOutOfBounds ∧ s.memSize ≤ s.pc.toNat))

/-- R30, R258, R290: every step counts one cycle, but the one whose opcode fetch itself faults. -/
def Obligations.EveryFetchedOpcodeCountsOneCycle : Prop :=
  ∀ s t : State, step s = .next t →
    (s.pc.toNat < s.memSize → t.cycles = s.cycles + 1) ∧ (s.memSize ≤ s.pc.toNat → t.cycles = s.cycles)

/-- R28: no step makes both flags true. -/
def Obligations.StepNeverSetsBothFlags : Prop :=
  ∀ s t : State, ¬(s.equal = true ∧ s.less = true) → step s = .next t → ¬(t.equal = true ∧ t.less = true)

/-- R30, R31, R37, R123: what a program can observe after a step depends on nothing but what it could observe before: the cycle
counter, the recorded cause and message and the output have no influence. -/
def Obligations.UnobservableStateHasNoInfluence : Prop :=
  ∀ s s' t : State, SameToProgram s s' → step s = .next t → ∃ t', step s' = .next t' ∧ SameToProgram t t'

/-- R123: a step is a function of the state and, for `getc_` only, of the input: every other instruction does the same whatever the
input stream holds. -/
def Obligations.OnlyGetcDependsOnInput : Prop :=
  ∀ (i : Instr) (s : State) (xs : List Byte) (ended : Bool) (n : Nat), i.mnemonic ≠ .getc_ →
    exec i { s with input := xs, inputEnded := ended, inPos := n } =
      match exec i s with
      | .next t => .next { t with input := xs, inputEnded := ended, inPos := n }
      | .fault f => .fault f
      | .refused r => .refused r

/-! ## Fetch -/

/-- R25: the fetch advance moves `pc` modulo `2^16`, counts one cycle and changes nothing else. -/
def Obligations.FetchAdvanceMovesPcOnly : Prop :=
  ∀ (s : State) (n : Nat),
    (s.afterFetch n).pc.toNat = (s.pc.toNat + n) % 2 ^ 16 ∧ (s.afterFetch n).cycles = s.cycles + 1 ∧
      OnlyLow16 [.cur] s (s.afterFetch n) ∧
      s.afterFetch n = { s with regs := (s.afterFetch n).regs, cycles := s.cycles + 1 }

/-- R111: where the bytes at `pc` decode to `i` and its fields lie inside memory, the step is `i`'s handler, run with `pc` past the
instruction and the cycle counted. The capacity is one R6 allows, as the invariant says. -/
def Obligations.StepRunsTheDecodedInstruction : Prop :=
  ∀ (s : State) (i : Instr) (rest : List Byte), s.CapacityOk → s.running = true → s.pc.toNat < s.memSize →
    decode (codeBytes s 7) = .ok (i, rest) → (∀ j, j < i.mnemonic.fieldCount → FieldReadable s j) →
    step s = exec i (s.afterFetch i.length)

/-- R111, D29: an opcode fetch outside memory faults before anything has changed. -/
def Obligations.OpcodeFetchOutOfBounds : Prop :=
  ∀ s : State, s.running = true → s.memSize ≤ s.pc.toNat → step s = .next (s.raise .memOutOfBounds)

/-- R93: an unassigned opcode index, at any width code, faults with `pc` one past the opcode byte and the cycle counted; no field is
fetched. -/
def Obligations.UnassignedOpcodeRaisesDecodeFault : Prop :=
  ∀ s : State, s.running = true → s.pc.toNat < s.memSize → 30 ≤ (codeAt s 0).toNat % 64 →
    step s = .next ((s.afterFetch 1).raise .decodeFault)

/-- R113: a field is big-endian, its fetch moves `pc` by 2, and a field whose two bytes do not lie inside memory is not fetched. -/
def Obligations.FetchFieldIsBigEndian : Prop :=
  ∀ s : State,
    (s.memSize < s.pc.toNat + 2 → fetchField s = none) ∧
    (s.pc.toNat + 2 ≤ s.memSize →
      ∃ f t, fetchField s = some (f, t) ∧
        f.toNat = 256 * (s.mem.read s.pc.toNat).toNat + (s.mem.read (s.pc.toNat + 1)).toNat ∧
        t.pc.toNat = (s.pc.toNat + 2) % 2 ^ 16 ∧ OnlyLow16 [.cur] s t ∧ SameMemory s t ∧ SameFlags s t ∧ SameStatus s t ∧
        SameStreams s t)

/-- R113, R242: where field `j` is the first one that cannot be fetched, the step faults with `pc` at that field. -/
def Obligations.FieldFetchFaultKeepsTheAdvances : Prop :=
  ∀ (s : State) (m : Mnemonic) (j : Nat), s.running = true → s.pc.toNat < s.memSize →
    (codeAt s 0).toNat % 64 = m.index → j < m.fieldCount → (∀ k, k < j → FieldReadable s k) → ¬FieldReadable s j →
    step s = .next ((s.afterFetch (1 + 2 * j)).raise .memOutOfBounds)

/-! ## Encoding -/

/-- R80 to R92: every instruction, with every operand at every value, is what the decoder reads from its encoding, and the bytes after it
are left. -/
def Obligations.DecodeOfEncode : Prop :=
  ∀ (i : Instr) (rest : List Byte), decode (encode i ++ rest) = .ok (i, rest)

/-- Where a list of bytes decodes, it is the encoding of the instruction followed by the rest. That two byte strings never decode to one
term of `Instr` rests on the model's choice of syntax (log 10): a term keeps the width code also where R83 and R92 ignore it, so that
`19`, `59`, `99` and `D9`, one instruction to the spec, are four terms. -/
def Obligations.EncodeOfDecode : Prop :=
  ∀ (bs rest : List Byte) (i : Instr), decode bs = .ok (i, rest) → encode i ++ rest = bs

/-- R91, R93, R95: seven bytes always decode, but where the opcode index is one of 30 to 63, which is refused by its name. -/
def Obligations.SevenBytesDecodeUnlessUnassigned : Prop :=
  ∀ (b : Byte) (bs : List Byte), 6 ≤ bs.length →
    (b.toNat % 64 < 30 → ∃ i rest, decode (b :: bs) = .ok (i, rest) ∧ i.mnemonic.index = b.toNat % 64) ∧
      (30 ≤ b.toNat % 64 → decode (b :: bs) = .error (.unassigned (opcodeIndex b)))

/-- R84: bit 15 is `R`, bit 14 is `M`, bits 13 to 0 the payload, and every field is the encoding of one operand. -/
def Obligations.OperandFieldLayout : Prop :=
  (∀ p : BitVec 14, (Operand.imm p).toField.toNat = p.toNat ∧ (Operand.reg p).toField.toNat = 0x8000 + p.toNat ∧
      (Operand.mem p).toField.toNat = 0x4000 + p.toNat ∧ (Operand.ind p).toField.toNat = 0xC000 + p.toNat) ∧
    ∀ f : Word16, (Operand.ofField f).toField = f

/-- R90: the length of every instruction is 1, 3, 5 or 7 bytes, and its encoding is that long. -/
def Obligations.EncodedLengths : Prop :=
  ∀ i : Instr, (encode i).length = i.length ∧
    i.length = if i.mnemonic = .halt then 1
      else if i.mnemonic ∈ [.stks, .push, .pop, .call, .ret, .getc_, .putc_] then 3
      else if i.mnemonic ∈ [.mov, .neg, .pos, .lnot, .bnot, .jmp, .ucmp, .icmp] then 5 else 7

/-- Some encodings written out from the spec's tables, one of each format. -/
def Obligations.SpecWordsDecode : Prop :=
  decode [0x00, 0x00, 0x05, 0x80, 0x04] = .ok (.mov .w1 (.imm 5) (.reg 4), []) ∧
    decode [0x41, 0x00, 0x02, 0x00, 0x03, 0x80, 0x00] = .ok (.add .w2 (.imm 2) (.imm 3) (.reg 0), []) ∧
    decode [0x92, 0x80, 0x00, 0x42, 0x00, 0x00, 0x01] = .ok (.sxi .w4 (.reg 0) (.mem 0x200) 1, []) ∧
    decode [0x13, 0x00, 0x04, 0x00, 0x0A] = .ok (.jmp .w1 4 (.imm 10), []) ∧
    decode [0xD5, 0x80, 0x00] = .ok (.push .w8 (.reg 0), []) ∧
    decode [0x1A, 0x41, 0x00] = .ok (.getc_ .w1 (.mem 0x100), []) ∧
    decode [0xD9] = .ok (.halt .w8, []) ∧
    decode [0x5C, 0x80, 0x00, 0xC0, 0x01] = .ok (.ucmp .w2 (.reg 0) (.ind 1), []) ∧
    decode [0x1E] = .error (.unassigned 30)

/-- R94: an instruction with an illegal operand encoding never completes: it raises a fault, whatever the state. -/
def Obligations.IllFormedInstructionsFault : Prop :=
  ∀ (i : Instr) (s : State), i.wellFormed = false → ∃ c, exec i s = .next (s.raise c)

/-- R94: a well-formed instruction raises no fault of an illegal encoding: only an access outside memory, a zero divisor, or `halt`
itself. -/
def Obligations.WellFormedInstructionsRaiseNoEncodingFault : Prop :=
  ∀ (i : Instr) (s t : State) (c : Cause), i.wellFormed = true → s.faultCause = none → exec i s = .next t →
    t.faultCause = some c →
    c = .memOutOfBounds ∨ (c = .divideByZero ∧ i.mnemonic ∈ [.udiv, .idiv]) ∨ (c = .halt ∧ i.mnemonic = .halt)

/-! ## Memory and the resolver -/

/-- R51: a read outside memory faults; any other gives the bytes at the address, the lowest first. -/
def Obligations.MemReadIsLittleEndian : Prop :=
  ∀ (s : State) (a : Nat) (w : Width),
    (s.memSize < a + w.bytes → s.memRead a w = .error .memOutOfBounds) ∧
      (a + w.bytes ≤ s.memSize →
        ∃ v, s.memRead a w = .ok v ∧ ∀ k, k < w.bytes → v.extractLsb' (8 * k) 8 = s.mem.read (a + k))

/-- R52: a write outside memory faults; any other changes exactly its bytes, the lowest first, and nothing else. -/
def Obligations.MemWriteIsLittleEndian : Prop :=
  ∀ (s : State) (a : Nat) (w : Width) (v : BitVec w.bits),
    (s.memSize < a + w.bytes → s.memWrite a w v = .error .memOutOfBounds) ∧
      (a + w.bytes ≤ s.memSize →
        ∃ t, s.memWrite a w v = .ok t ∧ BytesWritten s t a w v ∧ t.regs = s.regs ∧ SameFlags s t ∧ SameStatus s t ∧
          SameStreams s t)

/-- Two memories in the model's canonical form (log 7) that read alike are the same list. -/
def Obligations.CanonicalMemoriesThatReadAlikeAreEqual : Prop :=
  ∀ m m' : Memory, m.wf → m'.wf → (∀ a, m.read a = m'.read a) → m = m'

/-- R116: what each of the four addressing modes reads, and its fault. -/
def Obligations.ResolveReadByMode : Prop :=
  ∀ (s : State) (f : Word16) (w : Width),
    (f.getLsbD 15 = true → 5 < f.toNat % 2 ^ 14 → resolveRead s (.ofField f) w = .error .regOutOfBounds) ∧
    (∀ r, f.getLsbD 15 = true → f.toNat % 2 ^ 14 = regNumber r → f.getLsbD 14 = false →
      resolveRead s (.ofField f) w = .ok (s.regRead r w)) ∧
    (∀ r, f.getLsbD 15 = true → f.toNat % 2 ^ 14 = regNumber r → f.getLsbD 14 = true →
      resolveRead s (.ofField f) w = s.memRead (s.regRead r w).toNat w) ∧
    (f.getLsbD 15 = false → f.getLsbD 14 = true → resolveRead s (.ofField f) w = s.memRead (f.toNat % 2 ^ 14) w) ∧
    (f.getLsbD 15 = false → f.getLsbD 14 = false →
      ∃ v, resolveRead s (.ofField f) w = .ok v ∧ v.toNat = f.toNat % 2 ^ 14 % 2 ^ w.bits)

/-- R118: where each of the four addressing modes points as a destination, and its fault. -/
def Obligations.ResolveLocByMode : Prop :=
  ∀ (s : State) (f : Word16) (w : Width),
    (f.getLsbD 15 = true → 5 < f.toNat % 2 ^ 14 → resolveLoc s (.ofField f) w = .error .regOutOfBounds) ∧
    (∀ r, f.getLsbD 15 = true → f.toNat % 2 ^ 14 = regNumber r → f.getLsbD 14 = false →
      resolveLoc s (.ofField f) w = .ok (.reg r)) ∧
    (∀ r, f.getLsbD 15 = true → f.toNat % 2 ^ 14 = regNumber r → f.getLsbD 14 = true →
      resolveLoc s (.ofField f) w =
        if (s.regRead r w).toNat + w.bytes ≤ s.memSize then .ok (.mem (s.regRead r w).toNat) else .error .memOutOfBounds) ∧
    (f.getLsbD 15 = false → f.getLsbD 14 = true →
      resolveLoc s (.ofField f) w =
        if f.toNat % 2 ^ 14 + w.bytes ≤ s.memSize then .ok (.mem (f.toNat % 2 ^ 14)) else .error .memOutOfBounds) ∧
    (f.getLsbD 15 = false → f.getLsbD 14 = false → resolveLoc s (.ofField f) w = .error .invalidWriteTarget)

/-- R120: what a resolved write stored, a resolved read of the same operand at the same width gives back. -/
def Obligations.ResolverRoundTrip : Prop :=
  ∀ (s t : State) (o : Operand) (w : Width) (v : BitVec w.bits), resolveWrite s o w v = .ok t → resolveRead t o w = .ok v

/-! ## The instructions -/

/-- R140: `mov`. -/
def Obligations.MovCopiesWidthBytes : Prop :=
  SourceToDestRule .mov 0 fun _ a r => r = a

/-- R151, R152, R153: `add`, `sub`, `mul` modulo `2^W`. -/
def Obligations.AddSubMulWrap : Prop :=
  BinaryRule .add 1 (fun w a b r => r.toNat = (a.toNat + b.toNat) % 2 ^ w.bits) ∧
    BinaryRule .sub 2 (fun w a b r => r.toNat = (a.toNat + 2 ^ w.bits - b.toNat) % 2 ^ w.bits) ∧
    BinaryRule .mul 3 (fun w a b r => r.toNat = a.toNat * b.toNat % 2 ^ w.bits)

/-- R154: `udiv`. -/
def Obligations.UdivIsFloorAndFaultsOnZero : Prop :=
  DivisionRule .udiv 4 fun _ a b r => r.toNat = a.toNat / b.toNat

/-- R155, D17: `idiv` rounds toward zero, and the one quotient that does not fit wraps to the dividend. -/
def Obligations.IdivRoundsTowardZeroAndFaultsOnZero : Prop :=
  DivisionRule .idiv 5 fun w a b r =>
    (∃ q : Int, q.natAbs = a.toInt.natAbs / b.toInt.natAbs ∧ 0 ≤ q * (a.toInt * b.toInt) ∧ r = BitVec.ofInt w.bits q) ∧
      (a.toInt = -2 ^ (w.bits - 1) → b.toInt = -1 → r = a)

/-- R156 to R159, R165 (D18): the four shifts, by `u(b) mod W`. -/
def Obligations.ShiftsByCountModuloWidth : Prop :=
  BinaryRule .shl 6 (fun w a b r => r.toNat = a.toNat * 2 ^ (b.toNat % w.bits) % 2 ^ w.bits) ∧
    BinaryRule .shr 7 (fun w a b r => r.toNat = a.toNat / 2 ^ (b.toNat % w.bits)) ∧
    BinaryRule .sal 8 (fun w a b r => r.toNat = a.toNat * 2 ^ (b.toNat % w.bits) % 2 ^ w.bits) ∧
    BinaryRule .sar 9 (fun w a b r => r.toInt = a.toInt / 2 ^ (b.toNat % w.bits))

/-- R160, R161, R162: `and`, `or`, `xor`, bit by bit. -/
def Obligations.AndOrXorBitByBit : Prop :=
  BinaryRule .and 10 (fun w a b r => ∀ k, k < w.bits → r.getLsbD k = (a.getLsbD k && b.getLsbD k)) ∧
    BinaryRule .or 11 (fun w a b r => ∀ k, k < w.bits → r.getLsbD k = (a.getLsbD k || b.getLsbD k)) ∧
    BinaryRule .xor 12 (fun w a b r => ∀ k, k < w.bits → r.getLsbD k = (a.getLsbD k != b.getLsbD k))

/-- R171 to R174, D19: `neg`, `pos`, `lnot`, `bnot`. -/
def Obligations.UnaryOperations : Prop :=
  SourceToDestRule .neg 13 (fun w a r => r.toNat = (2 ^ w.bits - a.toNat) % 2 ^ w.bits) ∧
    SourceToDestRule .pos 14 (fun _ a r => r = a) ∧
    SourceToDestRule .lnot 15 (fun _ a r => r.toNat = if a.toNat = 0 then 1 else 0) ∧
    SourceToDestRule .bnot 16 (fun w a r => ∀ k, k < w.bits → r.getLsbD k = !a.getLsbD k)

/-- R181, R182, D13: `sxu` and `sxi`, widening and narrowing. -/
def Obligations.ExtendToTargetWidth : Prop :=
  ExtendRule .sxu 17 (fun w tw a r =>
      (w.bytes < tw.bytes → r.toNat = a.toNat) ∧ (tw.bytes ≤ w.bytes → r.toNat = a.toNat % 2 ^ tw.bits)) ∧
    ExtendRule .sxi 18 (fun w tw a r =>
      (w.bytes < tw.bytes → r.toInt = a.toInt) ∧ (tw.bytes ≤ w.bytes → r.toNat = a.toNat % 2 ^ tw.bits))

/-- R190, D12, D14: `jmp` checks its condition code, resolves its target whether or not it jumps, and writes at most the low 16 bits of
`cur`. -/
def Obligations.JumpWritesPcIfConditionHolds : Prop :=
  ∀ (w : Width) (cc : Word16) (target : Operand) (s : State),
    HasEncoding (.jmp w cc target) 19 [cc, target.toField] ∧
    (6 < cc.toNat → exec (.jmp w cc target) s = .next (s.raise .invalidJumpCondition)) ∧
    (∀ c, cc.toNat ≤ 6 → resolveRead s target .w2 = .error c → exec (.jmp w cc target) s = .next (s.raise c)) ∧
    (∀ v : Word16, cc.toNat ≤ 6 → resolveRead s target .w2 = .ok v →
      ∃ t, exec (.jmp w cc target) s = .next t ∧ (ConditionHolds cc.toNat s.equal s.less → t.pc = v) ∧
        (¬ConditionHolds cc.toNat s.equal s.less → t = s) ∧ OnlyLow16 [.cur] s t ∧ SameMemory s t ∧ SameFlags s t ∧
        SameStatus s t ∧ SameStreams s t)

/-- R191: the condition table: with a target that resolves, `jmp` goes there exactly when its condition holds, and every code above 6
faults. -/
def Obligations.ConditionTable : Prop :=
  ∀ (w : Width) (cc v : Word16) (target : Operand) (s : State), resolveRead s target .w2 = .ok v →
    (cc.toNat = 0 → exec (.jmp w cc target) s = .next (s.setPc v)) ∧
    (cc.toNat = 1 → exec (.jmp w cc target) s = .next (if s.less then s.setPc v else s)) ∧
    (cc.toNat = 2 → exec (.jmp w cc target) s = .next (if s.less || s.equal then s.setPc v else s)) ∧
    (cc.toNat = 3 → exec (.jmp w cc target) s = .next (if s.equal then s.setPc v else s)) ∧
    (cc.toNat = 4 → exec (.jmp w cc target) s = .next (if !s.equal then s.setPc v else s)) ∧
    (cc.toNat = 5 → exec (.jmp w cc target) s = .next (if !s.less && !s.equal then s.setPc v else s)) ∧
    (cc.toNat = 6 → exec (.jmp w cc target) s = .next (if !s.less then s.setPc v else s)) ∧
    (7 ≤ cc.toNat → exec (.jmp w cc target) s = .next (s.raise .invalidJumpCondition))

/-- R200: `stks`, which is `mov.2` to `stk`. -/
def Obligations.StksSetsStackPointer : Prop :=
  ∀ (w : Width) (src : Operand) (s : State),
    HasEncoding (.stks w src) 20 [src.toField] ∧
    exec (.stks w src) s = exec (.mov .w2 src (.reg 2)) s ∧
    (∀ c, resolveRead s src .w2 = .error c → exec (.stks w src) s = .next (s.raise c)) ∧
    (∀ v : Word16, resolveRead s src .w2 = .ok v →
      ∃ t, exec (.stks w src) s = .next t ∧ t.sp = v ∧ OnlyLow16 [.stk] s t ∧ SameMemory s t ∧ SameFlags s t ∧
        SameStatus s t ∧ SameStreams s t)

/-- R201: `push` stores at `sp`, then raises it modulo `2^16`. -/
def Obligations.PushStoresThenRaisesSp : Prop :=
  ∀ (w : Width) (src : Operand) (s : State),
    HasEncoding (.push w src) 21 [src.toField] ∧
    (∀ c, resolveRead s src w = .error c → exec (.push w src) s = .next (s.raise c)) ∧
    (∀ v, resolveRead s src w = .ok v → s.memSize < s.sp.toNat + w.bytes →
      exec (.push w src) s = .next (s.raise .memOutOfBounds)) ∧
    (∀ v, resolveRead s src w = .ok v → s.sp.toNat + w.bytes ≤ s.memSize →
      ∃ t, exec (.push w src) s = .next t ∧ BytesWritten s t s.sp.toNat w v ∧
        t.sp.toNat = (s.sp.toNat + w.bytes) % 2 ^ 16 ∧ OnlyLow16 [.stk] s t ∧ SameFlags s t ∧ SameStatus s t ∧
        SameStreams s t)

/-- R202, D10: `pop` lowers `sp` modulo `2^16`, reads there, and stores to its destination, resolved with `sp` lowered; a fault leaves
`sp` as it was. -/
def Obligations.PopLowersSpThenStores : Prop :=
  ∀ (w : Width) (dst : Operand) (s : State),
    HasEncoding (.pop w dst) 22 [dst.toField] ∧
    ((destinationState (.pop w dst) s).sp.toNat = (s.sp.toNat + 2 ^ 16 - w.bytes) % 2 ^ 16 ∧
      OnlyLow16 [.stk] s (destinationState (.pop w dst) s) ∧ SameMemory s (destinationState (.pop w dst) s) ∧
      SameFlags s (destinationState (.pop w dst) s) ∧ SameStatus s (destinationState (.pop w dst) s) ∧
      SameStreams s (destinationState (.pop w dst) s)) ∧
    (s.memSize < (s.sp.toNat + 2 ^ 16 - w.bytes) % 2 ^ 16 + w.bytes →
      exec (.pop w dst) s = .next (s.raise .memOutOfBounds)) ∧
    (∀ c, (s.sp.toNat + 2 ^ 16 - w.bytes) % 2 ^ 16 + w.bytes ≤ s.memSize →
      resolveLoc (destinationState (.pop w dst) s) dst w = .error c → exec (.pop w dst) s = .next (s.raise c)) ∧
    (∀ l, (s.sp.toNat + 2 ^ 16 - w.bytes) % 2 ^ 16 + w.bytes ≤ s.memSize →
      resolveLoc (destinationState (.pop w dst) s) dst w = .ok l →
      ∃ v t, (∀ k, k < w.bytes →
          v.extractLsb' (8 * k) 8 = s.mem.read ((s.sp.toNat + 2 ^ 16 - w.bytes) % 2 ^ 16 + k)) ∧
        exec (.pop w dst) s = .next t ∧ StoredOnly (destinationState (.pop w dst) s) t l w v)

/-- R203: `call` resolves its target, pushes `pc` and jumps. -/
def Obligations.CallPushesReturnAddress : Prop :=
  ∀ (w : Width) (target : Operand) (s : State),
    HasEncoding (.call w target) 23 [target.toField] ∧
    (∀ c, resolveRead s target .w2 = .error c → exec (.call w target) s = .next (s.raise c)) ∧
    (∀ v, resolveRead s target .w2 = .ok v → s.memSize < s.sp.toNat + 2 →
      exec (.call w target) s = .next (s.raise .memOutOfBounds)) ∧
    (∀ v : Word16, resolveRead s target .w2 = .ok v → s.sp.toNat + 2 ≤ s.memSize →
      ∃ t, exec (.call w target) s = .next t ∧ BytesWritten s t s.sp.toNat .w2 s.pc ∧
        t.sp.toNat = (s.sp.toNat + 2) % 2 ^ 16 ∧ t.pc = v ∧ OnlyLow16 [.stk, .cur] s t ∧ SameFlags s t ∧
        SameStatus s t ∧ SameStreams s t)

/-- R204, D15: `ret` discards its count, an unsigned number at the instruction width, pops the return address and jumps there. -/
def Obligations.RetDiscardsThenReturns : Prop :=
  ∀ (w : Width) (count : Operand) (s : State),
    HasEncoding (.ret w count) 24 [count.toField] ∧
    (∀ c, resolveRead s count w = .error c → exec (.ret w count) s = .next (s.raise c)) ∧
    ∀ n, resolveRead s count w = .ok n →
      (s.memSize < (s.sp.toNat + 2 ^ 17 - n.toNat % 2 ^ 16 - 2) % 2 ^ 16 + 2 →
        exec (.ret w count) s = .next (s.raise .memOutOfBounds)) ∧
      ((s.sp.toNat + 2 ^ 17 - n.toNat % 2 ^ 16 - 2) % 2 ^ 16 + 2 ≤ s.memSize →
        ∃ t, exec (.ret w count) s = .next t ∧ t.sp.toNat = (s.sp.toNat + 2 ^ 17 - n.toNat % 2 ^ 16 - 2) % 2 ^ 16 ∧
          t.pc.toNat = (s.mem.read t.sp.toNat).toNat + 256 * (s.mem.read (t.sp.toNat + 1)).toNat ∧
          OnlyLow16 [.stk, .cur] s t ∧ SameMemory s t ∧ SameFlags s t ∧ SameStatus s t ∧ SameStreams s t)

/-- R220: `halt`. -/
def Obligations.HaltStopsTheMachine : Prop :=
  ∀ (w : Width) (s : State),
    HasEncoding (.halt w) 25 [] ∧
    ∃ t, exec (.halt w) s = .next t ∧ t.running = false ∧ t.faultCause = some .halt ∧
      t.panicMessage = some "CPU halted" ∧ t.faulted = false ∧ t.regs = s.regs ∧ SameMemory s t ∧ SameFlags s t ∧
      t.cycles = s.cycles ∧ t.memSize = s.memSize ∧ SameStreams s t

/-- R221, D25: `getc_` resolves its destination first, takes one byte, or `0xFF` at end-of-stream, or waits; the wait ends with
the host's byte or end-of-stream (R42, R261). That a waiting `getc_` is a step that answers no state is the model's form of it (log 4), as
are the host's moves `supplyInput` and `closeInput` (log 11). -/
def Obligations.GetcReadsOneByte : Prop :=
  ∀ (w : Width) (dst : Operand) (s : State),
    HasEncoding (.getc_ w dst) 26 [dst.toField] ∧
    (∀ c, resolveLoc s dst .w1 = .error c → exec (.getc_ w dst) s = .next (s.raise c)) ∧
    (∀ l b, resolveLoc s dst .w1 = .ok l → s.input[s.inPos]? = some b →
      ∃ t, exec (.getc_ w dst) s = .next t ∧ LocWritten s t l .w1 b ∧ t.inPos = s.inPos + 1 ∧ t.input = s.input ∧
        t.inputEnded = s.inputEnded ∧ t.output = s.output ∧ SameFlags s t ∧ SameStatus s t) ∧
    (∀ l, resolveLoc s dst .w1 = .ok l → s.input.length ≤ s.inPos → s.inputEnded = true →
      ∃ t, exec (.getc_ w dst) s = .next t ∧ StoredOnly s t l .w1 0xFF#8) ∧
    (∀ l, resolveLoc s dst .w1 = .ok l → s.InputBlocked → exec (.getc_ w dst) s = .fault .awaitingInput) ∧
    (∀ l b bs, resolveLoc s dst .w1 = .ok l → s.InputOk → s.InputBlocked →
      ∃ t, exec (.getc_ w dst) (s.supplyInput (b :: bs)) = .next t ∧ LocWritten s t l .w1 b ∧ t.inPos = s.inPos + 1 ∧
        t.input = s.input ++ b :: bs ∧ t.inputEnded = false ∧ t.output = s.output ∧ SameFlags s t ∧ SameStatus s t) ∧
    (∀ l, resolveLoc s dst .w1 = .ok l → s.InputBlocked →
      ∃ t, exec (.getc_ w dst) s.closeInput = .next t ∧ StoredOnly s.closeInput t l .w1 0xFF#8)

/-- R222: `putc_` emits the low byte of its operand. -/
def Obligations.PutcEmitsLowByte : Prop :=
  ∀ (w : Width) (src : Operand) (s : State),
    HasEncoding (.putc_ w src) 27 [src.toField] ∧
    (∀ c, resolveRead s src w = .error c → exec (.putc_ w src) s = .next (s.raise c)) ∧
    (∀ v, resolveRead s src w = .ok v →
      ∃ t, exec (.putc_ w src) s = .next t ∧ t.output = s.output ++ [BitVec.ofNat 8 v.toNat] ∧ t.input = s.input ∧
        t.inputEnded = s.inputEnded ∧ t.inPos = s.inPos ∧ t.regs = s.regs ∧ SameMemory s t ∧ SameFlags s t ∧
        SameStatus s t)

/-- R231, R232, D6: `ucmp` and `icmp` write both flags and nothing else. -/
def Obligations.CompareWritesBothFlags : Prop :=
  CompareRule .ucmp 28 (fun _ a b => a.toNat < b.toNat) ∧ CompareRule .icmp 29 (fun _ a b => a.toInt < b.toInt)

/-! ## Rules over all instructions -/

/-- R240, R242, D22: what taking a fault records, and the message of each cause. -/
def Obligations.RaiseRecordsTheCauseOnly : Prop :=
  (∀ (s : State) (c : Cause), (s.raise c).running = false ∧ (s.raise c).faultCause = some c ∧
      (s.raise c).panicMessage = some c.message ∧ (s.raise c).regs = s.regs ∧ SameMemory s (s.raise c) ∧
      SameFlags s (s.raise c) ∧ (s.raise c).cycles = s.cycles ∧ (s.raise c).memSize = s.memSize ∧
      SameStreams s (s.raise c)) ∧
    [Cause.halt, .decodeFault, .memOutOfBounds, .regOutOfBounds, .invalidWriteTarget, .divideByZero, .invalidJumpCondition,
        .invalidExtendWidth].map (fun c => (c.code, c.message)) =
      [(0, "CPU halted"), (1, "Unrecognized opcode"), (2, "Memory access out of bounds"), (3, "Register index out of bounds"),
        (4, "Write to immediate operand"), (5, "Division by zero"), (6, "Invalid jump condition code"),
        (7, "Invalid size used in instruction: SXD/SXI")]

/-- R241: the causes each instruction's handler can raise. -/
def Obligations.HandlersRaiseOnlyTheirOwnCauses : Prop :=
  ∀ (i : Instr) (s t : State) (c : Cause), s.faultCause = none → exec i s = .next t → t.faultCause = some c → c ∈ mayRaise i

/-- R28, R29: no instruction but the compares writes a flag. -/
def Obligations.OnlyComparesWriteFlags : Prop :=
  ∀ (i : Instr) (s t : State), i.mnemonic ∉ [.ucmp, .icmp] → exec i s = .next t → SameFlags s t

/-- R23, R26, R27: a register's bit changes only where the instruction's register-direct destination holds it, or as the stack pointer
of a stack instruction, or as the program counter of a jump, call or return; so the upper 48 bits of `cur` and `stk` change only by a
register-direct destination wide enough. -/
def Obligations.RegistersChangeOnlyWhereNamed : Prop :=
  ∀ (i : Instr) (s t : State) (r : Reg) (k : Nat), exec i s = .next t →
    (t.regs.get r).getLsbD k ≠ (s.regs.get r).getLsbD k →
    NamesRegBit i r k ∨ (r = .stk ∧ k < 16 ∧ movesSp i = true) ∨ (r = .cur ∧ k < 16 ∧ movesPc i = true)

/-- R35, R52: a byte of memory changes only inside the destination the instruction resolves, or the stack slot of `push` and `call`,
and that range lies inside memory. -/
def Obligations.MemoryChangesOnlyInStoreRange : Prop :=
  ∀ (i : Instr) (s t : State) (b : Nat), exec i s = .next t → t.mem.read b ≠ s.mem.read b →
    ∃ a n, storeRange i s = some (a, n) ∧ a ≤ b ∧ b < a + n ∧ a + n ≤ s.memSize

/-- R37, R121: `getc_` alone consumes input, at most one byte, `putc_` alone emits, exactly one byte unless it faults, and no
instruction changes what the host supplied. -/
def Obligations.StreamsMoveOnlyByGetcAndPutc : Prop :=
  ∀ (i : Instr) (s t : State), exec i s = .next t →
    t.input = s.input ∧ t.inputEnded = s.inputEnded ∧ t.memSize = s.memSize ∧
      (t.inPos = s.inPos ∨ (i.mnemonic = .getc_ ∧ t.inPos = s.inPos + 1 ∧ s.inPos < s.input.length)) ∧
      (t.output = s.output ∨ (i.mnemonic = .putc_ ∧ ∃ b, t.output = s.output ++ [b]))

/-- R26, R158, R172: the jump with code 0 is `mov.2` to `cur`, `pos` is `mov`, `sal` is `shl`. -/
def Obligations.EquivalentInstructions : Prop :=
  ∀ (w : Width) (a b dst : Operand) (s : State),
    exec (.jmp w 0 a) s = exec (.mov .w2 a (.reg 5)) s ∧
      exec (.pos w a dst) s = exec (.mov w a dst) s ∧ exec (.sal w a b dst) s = exec (.shl w a b dst) s

/-- R205: a `push` and the `pop` of its width give the value back and leave `sp` where it was, whatever register but `stk` it goes to. -/
def Obligations.PushThenPopGivesTheValueBack : Prop :=
  ∀ (w : Width) (src : Operand) (s : State) (v : BitVec w.bits) (r : Reg) (p : BitVec 14),
    resolveRead s src w = .ok v → s.sp.toNat + w.bytes ≤ s.memSize → p.toNat = regNumber r → r ≠ .stk →
    ∃ t u, exec (.push w src) s = .next t ∧ exec (.pop w (.reg p)) t = .next u ∧ u.sp = s.sp ∧ u.regRead r w = v

/-- R203, R204, R206: a `ret` of no bytes after a `call` gives back `pc` and `sp`, whatever ran in between that left `sp` and the two
bytes of the return address alone. -/
def Obligations.CallThenReturn : Prop :=
  ∀ (w u : Width) (target : Operand) (v : Word16) (s : State), resolveRead s target .w2 = .ok v →
    s.sp.toNat + 2 ≤ s.memSize →
    ∃ t, exec (.call w target) s = .next t ∧ t.pc = v ∧
      ∀ t' : State, t'.sp = t.sp → t'.memSize = t.memSize →
        (∀ k, k < 2 → t'.mem.read (s.sp.toNat + k) = t.mem.read (s.sp.toNat + k)) →
        ∃ x, exec (.ret u (.imm 0)) t' = .next x ∧ x.pc = s.pc ∧ x.sp = s.sp

/-! ## The host -/

/-- R40: a load puts the image's bytes from offset 0 on and changes nothing else; that an image longer than memory is
not accepted is the model's choice (U8, log 11). -/
def Obligations.LoadPlacesTheImageVerbatim : Prop :=
  ∀ (s : State) (image : List Byte),
    (s.memSize < image.length → s.load image = none) ∧
      (image.length ≤ s.memSize →
        ∃ t, s.load image = some t ∧ (∀ k b, image[k]? = some b → t.mem.read k = b) ∧
          (∀ a, image.length ≤ a → t.mem.read a = s.mem.read a) ∧ t.regs = s.regs ∧ SameFlags s t ∧ SameStatus s t ∧
          SameStreams s t)

/-- R41, D22: the report: faulted exactly where a cause other than `Halt` is recorded, with the message and the cycle count. -/
def Obligations.ReportSaysFaulted : Prop :=
  ∀ s : State, (s.report.faulted = true ↔ ∃ c, s.faultCause = some c ∧ c ≠ .halt) ∧ s.report.message = s.panicMessage ∧
    s.report.cycles = s.cycles
end

