-- ==== Sys2Proof/Laws/Decode.lean ====
section
/-! SUPPORT. The laws of the encoding tables, of operand fields and of opcode bytes (R81 to R92). -/

namespace Sys2Proof

@[simp] theorem widthOfCode_codeOfWidth (w : Width) : widthOfCode (codeOfWidth w) = w := by cases w <;> rfl

theorem codeOfWidth_widthOfCode (wc : BitVec 2) : codeOfWidth (widthOfCode wc) = wc := by
  revert wc; decide

/-- The map lists every mnemonic, at its own index. -/
theorem opcodeMap_index (m : Mnemonic) : opcodeMap[m.index]? = some m := by cases m <;> rfl

/-- No two indices of the map have the same mnemonic. -/
theorem index_of_opcodeMap {k : Nat} {m : Mnemonic} (h : opcodeMap[k]? = some m) : m.index = k := by
  have hk : k < 30 := (List.getElem?_eq_some_iff.1 h).1
  interval_cases k <;> cases h <;> rfl

theorem index_lt (m : Mnemonic) : m.index < 30 := by cases m <;> decide

@[simp] theorem opcodeIndex_opcodeByte (m : Mnemonic) (w : Width) : opcodeIndex (opcodeByte m w) = BitVec.ofNat 6 m.index := by
  cases m <;> cases w <;> rfl

@[simp] theorem widthOfByte_opcodeByte (m : Mnemonic) (w : Width) : widthOfByte (opcodeByte m w) = w := by
  cases m <;> cases w <;> rfl

@[simp] theorem mnemonicOfByte_opcodeByte (m : Mnemonic) (w : Width) : mnemonicOfByte (opcodeByte m w) = some m := by
  cases m <;> cases w <;> rfl

/-- An opcode byte is the one its own mnemonic and width encode. -/
theorem opcodeByte_of_mnemonicOfByte {b : Byte} {m : Mnemonic} (h : mnemonicOfByte b = some m) : opcodeByte m (widthOfByte b) = b := by
  have hi : m.index = (opcodeIndex b).toNat := index_of_opcodeMap h
  simp only [opcodeByte, widthOfByte, codeOfWidth_widthOfCode, hi, widthCode, opcodeIndex]
  clear hi h
  revert b; decide

@[simp] theorem fieldOfBytes_high_low (f : Word16) : fieldOfBytes (fieldHigh f) (fieldLow f) = f := by
  refine BitVec.eq_of_getLsbD_eq fun k hk => ?_
  simp only [fieldOfBytes, fieldHigh, fieldLow, BitVec.getLsbD_append, BitVec.getLsbD_extractLsb']
  by_cases h : k < 8
  · simp [h]
  · simp [h, show k - 8 < 8 by omega, show 8 + (k - 8) = k by omega]

@[simp] theorem fieldHigh_fieldOfBytes (hi lo : Byte) : fieldHigh (fieldOfBytes hi lo) = hi := by
  refine BitVec.eq_of_getLsbD_eq fun k hk => ?_
  simp only [fieldOfBytes, fieldHigh, BitVec.getLsbD_extractLsb', BitVec.getLsbD_append]
  simp [hk]

@[simp] theorem fieldLow_fieldOfBytes (hi lo : Byte) : fieldLow (fieldOfBytes hi lo) = lo := by
  refine BitVec.eq_of_getLsbD_eq fun k hk => ?_
  simp only [fieldOfBytes, fieldLow, BitVec.getLsbD_extractLsb', BitVec.getLsbD_append]
  simp [hk]

theorem payload_append (f : BitVec 2) (p : BitVec 14) : (f ++ p : BitVec 16).extractLsb' 0 14 = p := by
  refine BitVec.eq_of_getLsbD_eq fun k hk => ?_
  simp only [BitVec.getLsbD_extractLsb', BitVec.getLsbD_append]
  simp [hk]

@[simp] theorem Operand.ofField_toField (o : Operand) : Operand.ofField o.toField = o := by
  cases o <;> simp only [Operand.toField, Operand.ofField, BitVec.getLsbD_append, payload_append] <;> rfl

/-- The register numbers are those below `NREG` (R6, R85). -/
theorem regOfIndex_isSome (p : BitVec 14) : (regOfIndex p).isSome = true ↔ p.toNat < Config.nreg := by
  unfold regOfIndex Config.nreg
  split <;> simp_all
  omega

/-- A register's bits are those of `REG_BYTES` bytes (R6, R20). -/
theorem word64_eq_regBytes : Word64 = BitVec (8 * Config.regBytes) := rfl

@[simp] theorem takeFields_fieldBytes (fs : List Word16) (rest : List Byte) :
    takeFields fs.length (fieldBytes fs ++ rest) = some (fs, rest) := by
  induction fs with
  | nil => rfl
  | cons f fs ih => simp [takeFields, fieldBytes, ih]

/-- The fields taken, written back in front of the rest, are the list. -/
theorem fieldBytes_of_takeFields {k : Nat} {bs rest : List Byte} {fs : List Word16} (h : takeFields k bs = some (fs, rest)) :
    fs.length = k ∧ fieldBytes fs ++ rest = bs := by
  induction k generalizing bs fs rest with
  | zero => cases h; exact ⟨rfl, rfl⟩
  | succ k ih =>
    match bs with
    | [] => cases h
    | [_] => cases h
    | hi :: lo :: bs =>
      simp only [takeFields] at h
      split at h
      · rename_i fs' rest' h'
        cases h
        obtain ⟨h1, h2⟩ := ih h'
        exact ⟨by simp [h1], by simp [fieldBytes, h2]⟩
      · cases h

end Sys2Proof
end

