-- ==== Sys2Proof/Laws/State.lean ====
section
/-! SUPPORT. One lemma per field per update of the state, and the small laws of the register file. -/

namespace Sys2Proof.Machine

/-! ## The register file -/

@[simp] theorem Regs.get_set_self (x : Regs) (r : Reg) (v : Word64) : (x.set r v).get r = v := by
  cases r <;> rfl

theorem Regs.get_set_ne (x : Regs) {q r : Reg} (v : Word64) (h : q ≠ r) : (x.set r v).get q = x.get q := by
  cases q <;> cases r <;> first | rfl | exact absurd rfl h

theorem Regs.get_set (x : Regs) (q r : Reg) (v : Word64) : (x.set r v).get q = if q = r then v else x.get q := by
  by_cases h : q = r
  · subst h; simp
  · simp [h, Regs.get_set_ne]

theorem Regs.ext_get {x y : Regs} (h : ∀ r, x.get r = y.get r) : x = y := by
  cases x; cases y
  have := h .aaa; have := h .bbb; have := h .stk; have := h .bsp; have := h .acc; have := h .cur
  simp_all [Regs.get]

/-! ## The updates -/

@[simp] theorem State.regWrite_regs (s : State) (r : Reg) (w : Width) (v : BitVec w.bits) : (s.regWrite r w v).regs = s.regs.set r (mergeLow (s.regs.get r) w v) := rfl
@[simp] theorem State.regWrite_mem (s : State) (r : Reg) (w : Width) (v : BitVec w.bits) : (s.regWrite r w v).mem = s.mem := rfl
@[simp] theorem State.regWrite_memSize (s : State) (r : Reg) (w : Width) (v : BitVec w.bits) : (s.regWrite r w v).memSize = s.memSize := rfl
@[simp] theorem State.regWrite_equal (s : State) (r : Reg) (w : Width) (v : BitVec w.bits) : (s.regWrite r w v).equal = s.equal := rfl
@[simp] theorem State.regWrite_less (s : State) (r : Reg) (w : Width) (v : BitVec w.bits) : (s.regWrite r w v).less = s.less := rfl
@[simp] theorem State.regWrite_cycles (s : State) (r : Reg) (w : Width) (v : BitVec w.bits) : (s.regWrite r w v).cycles = s.cycles := rfl
@[simp] theorem State.regWrite_running (s : State) (r : Reg) (w : Width) (v : BitVec w.bits) : (s.regWrite r w v).running = s.running := rfl
@[simp] theorem State.regWrite_panicMessage (s : State) (r : Reg) (w : Width) (v : BitVec w.bits) : (s.regWrite r w v).panicMessage = s.panicMessage := rfl
@[simp] theorem State.regWrite_faultCause (s : State) (r : Reg) (w : Width) (v : BitVec w.bits) : (s.regWrite r w v).faultCause = s.faultCause := rfl
@[simp] theorem State.regWrite_input (s : State) (r : Reg) (w : Width) (v : BitVec w.bits) : (s.regWrite r w v).input = s.input := rfl
@[simp] theorem State.regWrite_inputEnded (s : State) (r : Reg) (w : Width) (v : BitVec w.bits) : (s.regWrite r w v).inputEnded = s.inputEnded := rfl
@[simp] theorem State.regWrite_inPos (s : State) (r : Reg) (w : Width) (v : BitVec w.bits) : (s.regWrite r w v).inPos = s.inPos := rfl
@[simp] theorem State.regWrite_output (s : State) (r : Reg) (w : Width) (v : BitVec w.bits) : (s.regWrite r w v).output = s.output := rfl

@[simp] theorem State.setPc_regs (s : State) (t : Word16) : (s.setPc t).regs = s.regs.set .cur (mergeLow (s.regs.get .cur) Config.ptr t) := rfl
@[simp] theorem State.setPc_mem (s : State) (t : Word16) : (s.setPc t).mem = s.mem := rfl
@[simp] theorem State.setPc_memSize (s : State) (t : Word16) : (s.setPc t).memSize = s.memSize := rfl
@[simp] theorem State.setPc_equal (s : State) (t : Word16) : (s.setPc t).equal = s.equal := rfl
@[simp] theorem State.setPc_less (s : State) (t : Word16) : (s.setPc t).less = s.less := rfl
@[simp] theorem State.setPc_cycles (s : State) (t : Word16) : (s.setPc t).cycles = s.cycles := rfl
@[simp] theorem State.setPc_running (s : State) (t : Word16) : (s.setPc t).running = s.running := rfl
@[simp] theorem State.setPc_panicMessage (s : State) (t : Word16) : (s.setPc t).panicMessage = s.panicMessage := rfl
@[simp] theorem State.setPc_faultCause (s : State) (t : Word16) : (s.setPc t).faultCause = s.faultCause := rfl
@[simp] theorem State.setPc_input (s : State) (t : Word16) : (s.setPc t).input = s.input := rfl
@[simp] theorem State.setPc_inputEnded (s : State) (t : Word16) : (s.setPc t).inputEnded = s.inputEnded := rfl
@[simp] theorem State.setPc_inPos (s : State) (t : Word16) : (s.setPc t).inPos = s.inPos := rfl
@[simp] theorem State.setPc_output (s : State) (t : Word16) : (s.setPc t).output = s.output := rfl

@[simp] theorem State.setSp_regs (s : State) (t : Word16) : (s.setSp t).regs = s.regs.set .stk (mergeLow (s.regs.get .stk) Config.ptr t) := rfl
@[simp] theorem State.setSp_mem (s : State) (t : Word16) : (s.setSp t).mem = s.mem := rfl
@[simp] theorem State.setSp_memSize (s : State) (t : Word16) : (s.setSp t).memSize = s.memSize := rfl
@[simp] theorem State.setSp_equal (s : State) (t : Word16) : (s.setSp t).equal = s.equal := rfl
@[simp] theorem State.setSp_less (s : State) (t : Word16) : (s.setSp t).less = s.less := rfl
@[simp] theorem State.setSp_cycles (s : State) (t : Word16) : (s.setSp t).cycles = s.cycles := rfl
@[simp] theorem State.setSp_running (s : State) (t : Word16) : (s.setSp t).running = s.running := rfl
@[simp] theorem State.setSp_panicMessage (s : State) (t : Word16) : (s.setSp t).panicMessage = s.panicMessage := rfl
@[simp] theorem State.setSp_faultCause (s : State) (t : Word16) : (s.setSp t).faultCause = s.faultCause := rfl
@[simp] theorem State.setSp_input (s : State) (t : Word16) : (s.setSp t).input = s.input := rfl
@[simp] theorem State.setSp_inputEnded (s : State) (t : Word16) : (s.setSp t).inputEnded = s.inputEnded := rfl
@[simp] theorem State.setSp_inPos (s : State) (t : Word16) : (s.setSp t).inPos = s.inPos := rfl
@[simp] theorem State.setSp_output (s : State) (t : Word16) : (s.setSp t).output = s.output := rfl

@[simp] theorem State.putBytes_regs (s : State) (a : Nat) (w : Width) (v : BitVec w.bits) : (s.putBytes a w v).regs = s.regs := rfl
@[simp] theorem State.putBytes_mem (s : State) (a : Nat) (w : Width) (v : BitVec w.bits) : (s.putBytes a w v).mem = s.mem.writeLE a v w.bytes := rfl
@[simp] theorem State.putBytes_memSize (s : State) (a : Nat) (w : Width) (v : BitVec w.bits) : (s.putBytes a w v).memSize = s.memSize := rfl
@[simp] theorem State.putBytes_equal (s : State) (a : Nat) (w : Width) (v : BitVec w.bits) : (s.putBytes a w v).equal = s.equal := rfl
@[simp] theorem State.putBytes_less (s : State) (a : Nat) (w : Width) (v : BitVec w.bits) : (s.putBytes a w v).less = s.less := rfl
@[simp] theorem State.putBytes_cycles (s : State) (a : Nat) (w : Width) (v : BitVec w.bits) : (s.putBytes a w v).cycles = s.cycles := rfl
@[simp] theorem State.putBytes_running (s : State) (a : Nat) (w : Width) (v : BitVec w.bits) : (s.putBytes a w v).running = s.running := rfl
@[simp] theorem State.putBytes_panicMessage (s : State) (a : Nat) (w : Width) (v : BitVec w.bits) : (s.putBytes a w v).panicMessage = s.panicMessage := rfl
@[simp] theorem State.putBytes_faultCause (s : State) (a : Nat) (w : Width) (v : BitVec w.bits) : (s.putBytes a w v).faultCause = s.faultCause := rfl
@[simp] theorem State.putBytes_input (s : State) (a : Nat) (w : Width) (v : BitVec w.bits) : (s.putBytes a w v).input = s.input := rfl
@[simp] theorem State.putBytes_inputEnded (s : State) (a : Nat) (w : Width) (v : BitVec w.bits) : (s.putBytes a w v).inputEnded = s.inputEnded := rfl
@[simp] theorem State.putBytes_inPos (s : State) (a : Nat) (w : Width) (v : BitVec w.bits) : (s.putBytes a w v).inPos = s.inPos := rfl
@[simp] theorem State.putBytes_output (s : State) (a : Nat) (w : Width) (v : BitVec w.bits) : (s.putBytes a w v).output = s.output := rfl

@[simp] theorem State.setFlags_regs (s : State) (e l : Bool) : (s.setFlags e l).regs = s.regs := rfl
@[simp] theorem State.setFlags_mem (s : State) (e l : Bool) : (s.setFlags e l).mem = s.mem := rfl
@[simp] theorem State.setFlags_memSize (s : State) (e l : Bool) : (s.setFlags e l).memSize = s.memSize := rfl
@[simp] theorem State.setFlags_equal (s : State) (e l : Bool) : (s.setFlags e l).equal = e := rfl
@[simp] theorem State.setFlags_less (s : State) (e l : Bool) : (s.setFlags e l).less = l := rfl
@[simp] theorem State.setFlags_cycles (s : State) (e l : Bool) : (s.setFlags e l).cycles = s.cycles := rfl
@[simp] theorem State.setFlags_running (s : State) (e l : Bool) : (s.setFlags e l).running = s.running := rfl
@[simp] theorem State.setFlags_panicMessage (s : State) (e l : Bool) : (s.setFlags e l).panicMessage = s.panicMessage := rfl
@[simp] theorem State.setFlags_faultCause (s : State) (e l : Bool) : (s.setFlags e l).faultCause = s.faultCause := rfl
@[simp] theorem State.setFlags_input (s : State) (e l : Bool) : (s.setFlags e l).input = s.input := rfl
@[simp] theorem State.setFlags_inputEnded (s : State) (e l : Bool) : (s.setFlags e l).inputEnded = s.inputEnded := rfl
@[simp] theorem State.setFlags_inPos (s : State) (e l : Bool) : (s.setFlags e l).inPos = s.inPos := rfl
@[simp] theorem State.setFlags_output (s : State) (e l : Bool) : (s.setFlags e l).output = s.output := rfl

@[simp] theorem State.countCycle_regs (s : State) : (s.countCycle).regs = s.regs := rfl
@[simp] theorem State.countCycle_mem (s : State) : (s.countCycle).mem = s.mem := rfl
@[simp] theorem State.countCycle_memSize (s : State) : (s.countCycle).memSize = s.memSize := rfl
@[simp] theorem State.countCycle_equal (s : State) : (s.countCycle).equal = s.equal := rfl
@[simp] theorem State.countCycle_less (s : State) : (s.countCycle).less = s.less := rfl
@[simp] theorem State.countCycle_cycles (s : State) : (s.countCycle).cycles = s.cycles + 1 := rfl
@[simp] theorem State.countCycle_running (s : State) : (s.countCycle).running = s.running := rfl
@[simp] theorem State.countCycle_panicMessage (s : State) : (s.countCycle).panicMessage = s.panicMessage := rfl
@[simp] theorem State.countCycle_faultCause (s : State) : (s.countCycle).faultCause = s.faultCause := rfl
@[simp] theorem State.countCycle_input (s : State) : (s.countCycle).input = s.input := rfl
@[simp] theorem State.countCycle_inputEnded (s : State) : (s.countCycle).inputEnded = s.inputEnded := rfl
@[simp] theorem State.countCycle_inPos (s : State) : (s.countCycle).inPos = s.inPos := rfl
@[simp] theorem State.countCycle_output (s : State) : (s.countCycle).output = s.output := rfl

@[simp] theorem State.emit_regs (s : State) (b : Byte) : (s.emit b).regs = s.regs := rfl
@[simp] theorem State.emit_mem (s : State) (b : Byte) : (s.emit b).mem = s.mem := rfl
@[simp] theorem State.emit_memSize (s : State) (b : Byte) : (s.emit b).memSize = s.memSize := rfl
@[simp] theorem State.emit_equal (s : State) (b : Byte) : (s.emit b).equal = s.equal := rfl
@[simp] theorem State.emit_less (s : State) (b : Byte) : (s.emit b).less = s.less := rfl
@[simp] theorem State.emit_cycles (s : State) (b : Byte) : (s.emit b).cycles = s.cycles := rfl
@[simp] theorem State.emit_running (s : State) (b : Byte) : (s.emit b).running = s.running := rfl
@[simp] theorem State.emit_panicMessage (s : State) (b : Byte) : (s.emit b).panicMessage = s.panicMessage := rfl
@[simp] theorem State.emit_faultCause (s : State) (b : Byte) : (s.emit b).faultCause = s.faultCause := rfl
@[simp] theorem State.emit_input (s : State) (b : Byte) : (s.emit b).input = s.input := rfl
@[simp] theorem State.emit_inputEnded (s : State) (b : Byte) : (s.emit b).inputEnded = s.inputEnded := rfl
@[simp] theorem State.emit_inPos (s : State) (b : Byte) : (s.emit b).inPos = s.inPos := rfl
@[simp] theorem State.emit_output (s : State) (b : Byte) : (s.emit b).output = s.output ++ [b] := rfl

@[simp] theorem State.consume_regs (s : State) : (s.consume).regs = s.regs := rfl
@[simp] theorem State.consume_mem (s : State) : (s.consume).mem = s.mem := rfl
@[simp] theorem State.consume_memSize (s : State) : (s.consume).memSize = s.memSize := rfl
@[simp] theorem State.consume_equal (s : State) : (s.consume).equal = s.equal := rfl
@[simp] theorem State.consume_less (s : State) : (s.consume).less = s.less := rfl
@[simp] theorem State.consume_cycles (s : State) : (s.consume).cycles = s.cycles := rfl
@[simp] theorem State.consume_running (s : State) : (s.consume).running = s.running := rfl
@[simp] theorem State.consume_panicMessage (s : State) : (s.consume).panicMessage = s.panicMessage := rfl
@[simp] theorem State.consume_faultCause (s : State) : (s.consume).faultCause = s.faultCause := rfl
@[simp] theorem State.consume_input (s : State) : (s.consume).input = s.input := rfl
@[simp] theorem State.consume_inputEnded (s : State) : (s.consume).inputEnded = s.inputEnded := rfl
@[simp] theorem State.consume_inPos (s : State) : (s.consume).inPos = s.inPos + 1 := rfl
@[simp] theorem State.consume_output (s : State) : (s.consume).output = s.output := rfl

@[simp] theorem State.raise_regs (s : State) (c : Cause) : (s.raise c).regs = s.regs := rfl
@[simp] theorem State.raise_mem (s : State) (c : Cause) : (s.raise c).mem = s.mem := rfl
@[simp] theorem State.raise_memSize (s : State) (c : Cause) : (s.raise c).memSize = s.memSize := rfl
@[simp] theorem State.raise_equal (s : State) (c : Cause) : (s.raise c).equal = s.equal := rfl
@[simp] theorem State.raise_less (s : State) (c : Cause) : (s.raise c).less = s.less := rfl
@[simp] theorem State.raise_cycles (s : State) (c : Cause) : (s.raise c).cycles = s.cycles := rfl
@[simp] theorem State.raise_running (s : State) (c : Cause) : (s.raise c).running = false := rfl
@[simp] theorem State.raise_panicMessage (s : State) (c : Cause) : (s.raise c).panicMessage = some c.message := rfl
@[simp] theorem State.raise_faultCause (s : State) (c : Cause) : (s.raise c).faultCause = some c := rfl
@[simp] theorem State.raise_input (s : State) (c : Cause) : (s.raise c).input = s.input := rfl
@[simp] theorem State.raise_inputEnded (s : State) (c : Cause) : (s.raise c).inputEnded = s.inputEnded := rfl
@[simp] theorem State.raise_inPos (s : State) (c : Cause) : (s.raise c).inPos = s.inPos := rfl
@[simp] theorem State.raise_output (s : State) (c : Cause) : (s.raise c).output = s.output := rfl

end Sys2Proof.Machine
end

