-- ==== Sys2Proof/Laws/Registers.lean ====
section
/-! SUPPORT. Sub-field access of the registers (R22), `pc` and `sp`. -/

namespace Sys2Proof.Machine

theorem width_bits_le (w : Width) : w.bits ≤ 64 := by cases w <;> decide

theorem width_bytes_pos (w : Width) : 0 < w.bytes := by cases w <;> decide

theorem width_bytes_le (w : Width) : w.bytes ≤ 8 := by cases w <;> decide

theorem getLsbD_mergeLow (old : Word64) (w : Width) (v : BitVec w.bits) (k : Nat) :
    (mergeLow old w v).getLsbD k = if k < w.bits then v.getLsbD k else old.getLsbD k := by
  have hw := width_bits_le w
  simp only [mergeLow, BitVec.getLsbD_or, BitVec.getLsbD_shiftLeft, BitVec.getLsbD_ushiftRight, BitVec.getLsbD_setWidth]
  by_cases hk : k < w.bits
  · simp [hk, show k < 64 by omega]
  · have : v.getLsbD k = false := BitVec.getLsbD_of_ge v k (by omega)
    by_cases h64 : k < 64
    · simp [hk, h64, this, show w.bits + (k - w.bits) = k by omega]
    · simp [hk, h64, BitVec.getLsbD_of_ge old k (by omega)]

@[simp] theorem setWidth_mergeLow (old : Word64) (w : Width) (v : BitVec w.bits) : (mergeLow old w v).setWidth w.bits = v := by
  ext k hk
  have := getLsbD_mergeLow old w v k
  simp only [hk, if_true] at this
  simp [BitVec.getElem_setWidth, this, BitVec.getLsbD_eq_getElem hk]

@[simp] theorem State.regRead_regWrite_self (s : State) (r : Reg) (w : Width) (v : BitVec w.bits) :
    (s.regWrite r w v).regRead r w = v := by
  simp [State.regRead]

theorem State.regRead_regWrite_ne (s : State) {q r : Reg} (w u : Width) (v : BitVec w.bits) (h : q ≠ r) :
    (s.regWrite r w v).regRead q u = s.regRead q u := by
  simp [State.regRead, Regs.get_set_ne _ _ h]

/-- The bits of a register after a write of its low `w` bytes. -/
theorem State.getLsbD_regWrite (s : State) (q r : Reg) (w : Width) (v : BitVec w.bits) (k : Nat) :
    ((s.regWrite r w v).regs.get q).getLsbD k =
      if q = r ∧ k < w.bits then v.getLsbD k else (s.regs.get q).getLsbD k := by
  by_cases h : q = r
  · subst h; simp [getLsbD_mergeLow]
  · simp [h, Regs.get_set_ne]

@[simp] theorem State.pc_setPc (s : State) (t : Word16) : (s.setPc t).pc = t := State.regRead_regWrite_self s .cur .w2 t

@[simp] theorem State.sp_setSp (s : State) (t : Word16) : (s.setSp t).sp = t := State.regRead_regWrite_self s .stk .w2 t

@[simp] theorem State.sp_setPc (s : State) (t : Word16) : (s.setPc t).sp = s.sp :=
  State.regRead_regWrite_ne s .w2 .w2 t (by decide)

@[simp] theorem State.pc_setSp (s : State) (t : Word16) : (s.setSp t).pc = s.pc :=
  State.regRead_regWrite_ne s .w2 .w2 t (by decide)

@[simp] theorem State.pc_countCycle (s : State) : s.countCycle.pc = s.pc := rfl

@[simp] theorem State.sp_putBytes (s : State) (a : Nat) (w : Width) (v : BitVec w.bits) : (s.putBytes a w v).sp = s.sp := rfl

@[simp] theorem State.pc_putBytes (s : State) (a : Nat) (w : Width) (v : BitVec w.bits) : (s.putBytes a w v).pc = s.pc := rfl

/-- A second write of the same sub-field replaces the first. -/
theorem mergeLow_mergeLow (old : Word64) (w : Width) (u v : BitVec w.bits) : mergeLow (mergeLow old w u) w v = mergeLow old w v := by
  refine BitVec.eq_of_getLsbD_eq fun k _ => ?_
  simp only [getLsbD_mergeLow]; split <;> rfl

theorem Regs.set_set (x : Regs) (r : Reg) (u v : Word64) : (x.set r u).set r v = x.set r v := by cases r <;> rfl

theorem State.regWrite_regWrite (s : State) (r : Reg) (w : Width) (u v : BitVec w.bits) :
    (s.regWrite r w u).regWrite r w v = s.regWrite r w v := by
  simp only [State.regWrite, Regs.get_set_self, Regs.set_set, mergeLow_mergeLow]

@[simp] theorem State.setPc_setPc (s : State) (t u : Word16) : (s.setPc t).setPc u = s.setPc u :=
  s.regWrite_regWrite .cur .w2 t u

/-- Writing a register's low bytes back changes nothing. -/
theorem State.regWrite_self (s : State) (r : Reg) (w : Width) : s.regWrite r w (s.regRead r w) = s := by
  have h : s.regs.set r (mergeLow (s.regs.get r) w (s.regRead r w)) = s.regs := by
    refine Regs.ext_get fun q => BitVec.eq_of_getLsbD_eq fun k hk => ?_
    rw [Regs.get_set]
    split
    · rename_i hq; subst hq
      rw [getLsbD_mergeLow]
      split
      · rename_i hk2; simp [State.regRead, hk2]
      · rfl
    · rfl
  show { s with regs := s.regs.set r (mergeLow (s.regs.get r) w (s.regRead r w)) } = s
  rw [h]

theorem State.setPc_self (s : State) : s.setPc s.pc = s := s.regWrite_self .cur .w2

/-- Writing `pc` leaves every other register and the upper bits of `cur` (R26). -/
theorem State.getLsbD_setPc (s : State) (t : Word16) (r : Reg) (k : Nat) :
    ((s.setPc t).regs.get r).getLsbD k = if r = .cur ∧ k < 16 then t.getLsbD k else (s.regs.get r).getLsbD k :=
  s.getLsbD_regWrite r .cur .w2 t k

/-- Writing `sp` leaves every other register and the upper bits of `stk` (R27). -/
theorem State.getLsbD_setSp (s : State) (t : Word16) (r : Reg) (k : Nat) :
    ((s.setSp t).regs.get r).getLsbD k = if r = .stk ∧ k < 16 then t.getLsbD k else (s.regs.get r).getLsbD k :=
  s.getLsbD_regWrite r .stk .w2 t k

end Sys2Proof.Machine
end

