-- ==== Sys2Proof/Laws/Memory.lean ====
section
/-! SUPPORT. The laws of memory: read after write, the canonical form kept by every operation, multi-byte accesses. -/

namespace Sys2Proof.Machine

/-! ## One byte -/

theorem Memory.read_erase (m : Memory) (a b : Nat) : (m.erase a).read b = if b = a then unlistedByte else m.read b := by
  induction m with
  | nil => simp [Memory.erase, Memory.read]
  | cons c m ih =>
    obtain ⟨c, u⟩ := c
    simp only [Memory.erase] at ih
    by_cases hc : c = a
    · subst hc
      simp only [Memory.erase, ne_eq, not_true, decide_false, Bool.false_eq_true, not_false_eq_true, List.filter_cons_of_neg]
      rw [ih]; simp only [Memory.read]; split <;> rfl
    · rw [Memory.erase, List.filter_cons_of_pos (by simpa using hc)]
      simp only [Memory.read, ih]
      by_cases hb : b = c
      · subst hb; simp [hc]
      · simp [hb]

theorem Memory.mem_erase {m : Memory} {a : Nat} {c : Host.Cell} : c ∈ m.erase a ↔ c ∈ m ∧ c.1 ≠ a := by
  simp [Memory.erase]

theorem Memory.read_insert {m : Memory} {a : Nat} (v : Byte) (h : ∀ c ∈ m, c.1 ≠ a) (b : Nat) :
    (m.insert a v).read b = if b = a then v else m.read b := by
  induction m with
  | nil => simp [Memory.insert, Memory.read]
  | cons c m ih =>
    obtain ⟨c, u⟩ := c
    have hc : c ≠ a := h (c, u) (by simp)
    simp only [Memory.insert]
    split
    · simp [Memory.read]
    · simp only [Memory.read, ih fun d hd => h d (by simp [hd])]
      by_cases hb : b = c
      · subst hb; simp [hc]
      · simp [hb]

/-- A byte read after a byte is written. -/
theorem Memory.read_write (m : Memory) (a : Nat) (v : Byte) (b : Nat) :
    (m.write a v).read b = if b = a then v else m.read b := by
  simp only [Memory.write]
  split
  · rename_i hv; rw [Memory.read_erase, hv]
  · rw [Memory.read_insert v (fun c hc => (Memory.mem_erase.1 hc).2), Memory.read_erase]
    split <;> rfl

theorem Memory.mem_insert {m : Memory} {a : Nat} {v : Byte} {c : Host.Cell} (h : c ∈ m.insert a v) : c = (a, v) ∨ c ∈ m := by
  induction m with
  | nil => simpa [Memory.insert] using h
  | cons d m ih =>
    simp only [Memory.insert] at h
    split at h
    · simpa using h
    · rcases List.mem_cons.1 h with h | h
      · simp [h]
      · rcases ih h with h | h <;> simp [h]

theorem Memory.pairwise_insert {m : Memory} {a : Nat} (v : Byte) (hm : m.Pairwise fun c d => c.1 < d.1)
    (h : ∀ c ∈ m, c.1 ≠ a) : (m.insert a v).Pairwise fun c d => c.1 < d.1 := by
  induction m with
  | nil => simp [Memory.insert]
  | cons d m ih =>
    obtain ⟨b, u⟩ := d
    obtain ⟨hb, hm⟩ := List.pairwise_cons.1 hm
    simp only [Memory.insert]
    split
    · rename_i hab
      refine List.pairwise_cons.2 ⟨fun c hc => ?_, List.pairwise_cons.2 ⟨hb, hm⟩⟩
      rcases List.mem_cons.1 hc with rfl | hc
      · exact hab
      · exact Nat.lt_trans hab (hb c hc)
    · rename_i hab
      have hne : b ≠ a := h (b, u) (by simp)
      refine List.pairwise_cons.2 ⟨fun c hc => ?_, ih hm fun c hc => h c (by simp [hc])⟩
      rcases Memory.mem_insert hc with rfl | hc
      · show b < a; omega
      · exact hb c hc

/-- Writing a byte keeps the canonical form. -/
theorem Memory.wf_write {m : Memory} (hm : m.wf) (a : Nat) (v : Byte) : (m.write a v).wf := by
  have he : (m.erase a).Pairwise fun c d => c.1 < d.1 := hm.1.filter _
  have hz : ∀ c ∈ m.erase a, c.2 ≠ unlistedByte := fun c hc => hm.2 c (Memory.mem_erase.1 hc).1
  simp only [Memory.write]
  split
  · exact ⟨he, hz⟩
  · rename_i hv
    refine ⟨Memory.pairwise_insert v he fun c hc => (Memory.mem_erase.1 hc).2, fun c hc => ?_⟩
    rcases Memory.mem_insert hc with rfl | hc
    · exact hv
    · exact hz c hc

/-- Writing a byte inside memory lists no address outside it. -/
theorem Memory.below_write {m : Memory} {n : Nat} (hm : m.below n) {a : Nat} (ha : a < n) (v : Byte) : (m.write a v).below n := by
  have he : ∀ c ∈ m.erase a, c.1 < n := fun c hc => hm c (Memory.mem_erase.1 hc).1
  simp only [Memory.write]
  split
  · exact he
  · intro c hc
    rcases Memory.mem_insert hc with rfl | hc
    · exact ha
    · exact he c hc

/-! ## Several bytes -/

/-- A byte read after a little-endian store. -/
theorem Memory.read_writeLE (m : Memory) (a : Nat) {k : Nat} (v : BitVec k) (n b : Nat) :
    (m.writeLE a v n).read b = if a ≤ b ∧ b < a + n then v.extractLsb' (8 * (b - a)) 8 else m.read b := by
  induction n with
  | zero => simp [Memory.writeLE, show ¬(a ≤ b ∧ b < a) by omega]
  | succ n ih =>
    simp only [Memory.writeLE, Memory.read_write, ih]
    by_cases hb : b = a + n
    · subst hb; simp
    · by_cases h : a ≤ b ∧ b < a + n
      · simp [hb, h, show b < a + (n + 1) by omega]
      · simp [hb, h, show ¬(a ≤ b ∧ b < a + (n + 1)) by omega]

theorem Memory.wf_writeLE {m : Memory} (hm : m.wf) (a : Nat) {k : Nat} (v : BitVec k) (n : Nat) : (m.writeLE a v n).wf := by
  induction n with
  | zero => exact hm
  | succ n ih => exact Memory.wf_write ih _ _

theorem Memory.below_writeLE {m : Memory} {N : Nat} (hm : m.below N) {a : Nat} {k : Nat} (v : BitVec k) {n : Nat}
    (h : a + n ≤ N) : (m.writeLE a v n).below N := by
  induction n with
  | zero => exact hm
  | succ n ih => exact Memory.below_write (ih (by omega)) (by omega) _

theorem Memory.wf_writeBytes {m : Memory} (hm : m.wf) (a : Nat) (bs : List Byte) : (m.writeBytes a bs).wf := by
  induction bs generalizing m a with
  | nil => exact hm
  | cons b bs ih => exact ih (Memory.wf_write hm _ _) _

theorem Memory.below_writeBytes {m : Memory} {N : Nat} (hm : m.below N) {a : Nat} {bs : List Byte} (h : a + bs.length ≤ N) :
    (m.writeBytes a bs).below N := by
  induction bs generalizing m a with
  | nil => exact hm
  | cons b bs ih =>
    simp only [List.length_cons] at h
    exact ih (Memory.below_write hm (by omega) _) (by omega)

/-- A byte read after a list of bytes is stored. -/
theorem Memory.read_writeBytes (m : Memory) (a : Nat) (bs : List Byte) (b : Nat) :
    (m.writeBytes a bs).read b = if a ≤ b then (bs[b - a]?).getD (m.read b) else m.read b := by
  induction bs generalizing m a with
  | nil => simp [Memory.writeBytes]
  | cons c bs ih =>
    simp only [Memory.writeBytes, ih, Memory.read_write]
    by_cases h1 : a + 1 ≤ b
    · simp [h1, show a ≤ b by omega, show b ≠ a by omega, show b - a = b - (a + 1) + 1 by omega]
    · by_cases h2 : b = a
      · subst h2; simp
      · simp [h1, h2, show ¬a ≤ b by omega]

/-- A byte of a little-endian read. -/
theorem Memory.extract_readLE (m : Memory) (a : Nat) {n k : Nat} (hk : k < n) :
    (m.readLE a n).extractLsb' (8 * k) 8 = m.read (a + k) := by
  induction n generalizing a k with
  | zero => omega
  | succ n ih =>
    refine BitVec.eq_of_getLsbD_eq fun j hj => ?_
    simp only [Memory.readLE, BitVec.getLsbD_extractLsb', hj, decide_true, Bool.true_and]
    rw [BitVec.getLsbD_append]
    cases k with
    | zero => simp [hj]
    | succ k =>
      have := congrArg (fun x => x.getLsbD j) (ih (a + 1) (k := k) (by omega))
      simp only [BitVec.getLsbD_extractLsb', hj, decide_true, Bool.true_and] at this
      rw [if_neg (by omega), show 8 * (k + 1) + j - 8 = 8 * k + j by omega, this, show a + 1 + k = a + (k + 1) by omega]

/-- Two values of `n` bytes with the same bytes are the same. -/
theorem eq_of_bytes {n : Nat} {x y : BitVec (8 * n)} (h : ∀ k, k < n → x.extractLsb' (8 * k) 8 = y.extractLsb' (8 * k) 8) : x = y := by
  refine BitVec.eq_of_getLsbD_eq fun j hj => ?_
  have := congrArg (fun z => z.getLsbD (j % 8)) (h (j / 8) (by omega))
  simpa [BitVec.getLsbD_extractLsb', Nat.mod_lt, Nat.div_add_mod] using this

/-- A little-endian read depends on its own bytes only. -/
theorem Memory.readLE_congr {m m' : Memory} {a n : Nat} (h : ∀ k, k < n → m'.read (a + k) = m.read (a + k)) :
    m'.readLE a n = m.readLE a n :=
  eq_of_bytes fun k hk => by rw [Memory.extract_readLE _ _ hk, Memory.extract_readLE _ _ hk, h k hk]

/-- A little-endian read of what was stored there gives it back. -/
theorem Memory.readLE_writeLE (m : Memory) (a n : Nat) (v : BitVec (8 * n)) : (m.writeLE a v n).readLE a n = v :=
  eq_of_bytes fun k hk => by
    rw [Memory.extract_readLE _ _ hk, Memory.read_writeLE]
    simp [show k < n from hk]

/-- Bytes placed for the fetch keep the canonical form. -/
theorem State.wf_placeAt {s : State} (h : s.mem.wf) (a : Word16) (bs : List Byte) : (s.placeAt a bs).mem.wf := by
  induction bs generalizing s a with
  | nil => exact h
  | cons b bs ih =>
    refine ih ?_ _
    split
    · exact Memory.wf_write h _ _
    · exact h

end Sys2Proof.Machine
end

