-- ==== Sys2Proof/Laws/Operands.lean ====
section
/-! SUPPORT. What the resolver can do (R116 to R120), and that a store changes exactly its location. -/

namespace Sys2Proof.Machine

/-! ## Register numbers -/

theorem regOfIndex_eq_none {p : BitVec 14} : regOfIndex p = none ↔ 5 < p.toNat := by
  unfold regOfIndex
  split <;> simp_all
  omega

theorem resolveReg_ok {p : BitVec 14} {r : Reg} : resolveReg p = .ok r ↔ regOfIndex p = some r := by
  unfold resolveReg; split <;> simp_all

theorem resolveReg_error {p : BitVec 14} {c : Cause} : resolveReg p = .error c ↔ 5 < p.toNat ∧ c = .regOutOfBounds := by
  rw [← regOfIndex_eq_none]; unfold resolveReg
  cases regOfIndex p <;> simp [eq_comm]

/-! ## Bounds -/

theorem State.memRead_ok {s : State} {a : Nat} {w : Width} {v : BitVec w.bits} :
    s.memRead a w = .ok v ↔ a + w.bytes ≤ s.memSize ∧ v = s.mem.readLE a w.bytes := by
  by_cases h : a + w.bytes ≤ s.memSize <;> simp [State.memRead, State.inBounds, h, eq_comm]

theorem State.memRead_error {s : State} {a : Nat} {w : Width} {c : Cause} :
    s.memRead a w = .error c ↔ s.memSize < a + w.bytes ∧ c = .memOutOfBounds := by
  by_cases h : a + w.bytes ≤ s.memSize <;> simp [State.memRead, State.inBounds, h, eq_comm]
  omega

theorem State.memWrite_ok {s t : State} {a : Nat} {w : Width} {v : BitVec w.bits} :
    s.memWrite a w v = .ok t ↔ a + w.bytes ≤ s.memSize ∧ t = s.putBytes a w v := by
  by_cases h : a + w.bytes ≤ s.memSize <;> simp [State.memWrite, State.inBounds, h, eq_comm]

theorem State.memWrite_error {s : State} {a : Nat} {w : Width} {v : BitVec w.bits} {c : Cause} :
    s.memWrite a w v = .error c ↔ s.memSize < a + w.bytes ∧ c = .memOutOfBounds := by
  by_cases h : a + w.bytes ≤ s.memSize <;> simp [State.memWrite, State.inBounds, h, eq_comm]
  omega

theorem State.locAt_ok {s : State} {a : Nat} {w : Width} {l : Loc} :
    s.locAt a w = .ok l ↔ a + w.bytes ≤ s.memSize ∧ l = .mem a := by
  by_cases h : a + w.bytes ≤ s.memSize <;> simp [State.locAt, State.inBounds, h, eq_comm]

theorem State.locAt_error {s : State} {a : Nat} {w : Width} {c : Cause} :
    s.locAt a w = .error c ↔ s.memSize < a + w.bytes ∧ c = .memOutOfBounds := by
  by_cases h : a + w.bytes ≤ s.memSize <;> simp [State.locAt, State.inBounds, h, eq_comm]
  omega

/-! ## Locations -/

/-- A memory location the resolver gives lies inside memory. -/
theorem resolveLoc_inBounds {s : State} {o : Operand} {w : Width} {a : Nat} (h : resolveLoc s o w = .ok (.mem a)) :
    a + w.bytes ≤ s.memSize := by
  cases o with
  | imm p => simp [resolveLoc] at h
  | reg p => simp only [resolveLoc] at h; split at h <;> simp at h
  | mem p =>
    obtain ⟨h1, h2⟩ := State.locAt_ok.1 h
    cases h2; exact h1
  | ind p =>
    simp only [resolveLoc] at h
    split at h
    · simp at h
    · obtain ⟨h1, h2⟩ := State.locAt_ok.1 h
      cases h2; exact h1

/-- A register location comes from a register-direct operand that names the register. -/
theorem resolveLoc_reg {s : State} {o : Operand} {w : Width} {r : Reg} :
    resolveLoc s o w = .ok (.reg r) ↔ ∃ p, o = .reg p ∧ regOfIndex p = some r := by
  cases o with
  | imm p => simp [resolveLoc]
  | reg p =>
    simp only [resolveLoc, Operand.reg.injEq, exists_eq_left', ← resolveReg_ok]
    split <;> simp_all
  | mem p => simp [resolveLoc, State.locAt_ok]
  | ind p =>
    simp only [resolveLoc]
    split <;> simp [State.locAt_ok]

/-- A resolved write answers the store at the resolved location. -/
theorem resolveWrite_ok {s t : State} {o : Operand} {w : Width} {v : BitVec w.bits} :
    resolveWrite s o w v = .ok t ↔ ∃ l, resolveLoc s o w = .ok l ∧ t = s.store l w v := by
  unfold resolveWrite
  cases resolveLoc s o w <;> simp [eq_comm]

theorem resolveWrite_error {s : State} {o : Operand} {w : Width} {v : BitVec w.bits} {c : Cause} :
    resolveWrite s o w v = .error c ↔ resolveLoc s o w = .error c := by
  unfold resolveWrite
  cases resolveLoc s o w <;> simp

/-! ## What the resolver depends on -/

/-- A resolved read depends on registers, memory and the capacity alone. -/
theorem resolveRead_congr {s t : State} (hr : t.regs = s.regs) (hm : t.mem = s.mem) (hn : t.memSize = s.memSize) (o : Operand)
    (w : Width) : resolveRead t o w = resolveRead s o w := by
  cases s; cases t; cases hr; cases hm; cases hn
  cases o <;> rfl

/-- A resolved location depends on registers and the capacity alone. -/
theorem resolveLoc_congr {s t : State} (hr : t.regs = s.regs) (hn : t.memSize = s.memSize) (o : Operand) (w : Width) :
    resolveLoc t o w = resolveLoc s o w := by
  cases s; cases t; cases hr; cases hn
  cases o <;> rfl

/-! ## The host's moves -/

/-- Bytes supplied while the stream is open come after those supplied before. -/
theorem State.supplyInput_open {s : State} (h : s.inputEnded = false) (bs : List Byte) :
    s.supplyInput bs = { s with input := s.input ++ bs } := by
  simp [State.supplyInput, h]

/-- A supply of bytes touches no field but `input`. -/
theorem State.supplyInput_eq (s : State) (bs : List Byte) : s.supplyInput bs = { s with input := (s.supplyInput bs).input } := by
  unfold State.supplyInput; split <;> rfl

/-- Where the machine has consumed all it was given, the next input is the first byte the host then supplies. -/
theorem nextInput_supplyInput {s : State} (hi : s.InputOk) (hb : s.InputBlocked) (b : Byte) (bs : List Byte) :
    (s.supplyInput (b :: bs)).nextInput = some (b, (s.supplyInput (b :: bs)).consume) := by
  have h : s.inPos = s.input.length := le_antisymm hi hb.1
  simp [State.supplyInput_open hb.2, State.nextInput, h]

/-- Where the machine has consumed all it was given, the next input after the declared end is `EOF_BYTE`. -/
theorem nextInput_closeInput {s : State} (hb : s.InputBlocked) : s.closeInput.nextInput = some (Config.eofByte, s.closeInput) := by
  simp [State.closeInput, State.nextInput, hb.1]

/-! ## Stores -/

theorem regWrite_regWritten (s : State) (r : Reg) (w : Width) (v : BitVec w.bits) : RegWritten s (s.regWrite r w v) r w v :=
  ⟨s.regRead_regWrite_self r w v,
    fun k hk => by rw [s.getLsbD_regWrite, if_neg (by omega)],
    fun q hq => by simp [Regs.get_set_ne _ _ hq]⟩

theorem putBytes_bytesWritten (s : State) (a : Nat) (w : Width) (v : BitVec w.bits) :
    BytesWritten s (s.putBytes a w v) a w v :=
  ⟨fun k hk => by simp [Memory.read_writeLE, hk],
    fun b hb => by rw [State.putBytes_mem, Memory.read_writeLE, if_neg (by omega)]⟩

/-- All a store does: its location is written, and nothing else. -/
theorem store_storedOnly (s : State) (l : Loc) (w : Width) (v : BitVec w.bits) : StoredOnly s (s.store l w v) l w v := by
  cases l with
  | reg r =>
    exact ⟨⟨regWrite_regWritten s r w v, fun _ => rfl⟩, ⟨rfl, rfl⟩, ⟨rfl, rfl, rfl, rfl, rfl⟩, ⟨rfl, rfl, rfl, rfl⟩⟩
  | mem a =>
    exact ⟨⟨putBytes_bytesWritten s a w v, rfl⟩, ⟨rfl, rfl⟩, ⟨rfl, rfl, rfl, rfl, rfl⟩, ⟨rfl, rfl, rfl, rfl⟩⟩

/-- Of the invariant, a store can only touch memory's part, and keeps it where its location is inside memory. -/
theorem store_memoryOk {s : State} (h : s.MemoryOk) {o : Operand} {w : Width} {l : Loc} {s0 : State}
    (hs : s0.memSize = s.memSize) (hl : resolveLoc s0 o w = .ok l) (v : BitVec w.bits) : (s.store l w v).MemoryOk := by
  cases l with
  | reg r => exact h
  | mem a =>
    have := resolveLoc_inBounds hl
    exact ⟨Memory.wf_writeLE h.1 _ _ _, Memory.below_writeLE h.2 _ (by simpa [State.store, hs] using this)⟩

end Sys2Proof.Machine
end

