-- ==== Sys2Proof/Laws/Exec.lean ====
section
/-! SUPPORT. What each shared shape and each meaning can answer: one inversion lemma each. Every one of them says that the handler
answered either its fault, raised in the state it began in, or its one effect. -/

namespace Sys2Proof.Machine

theorem next_inj {s t : State} : (Host.Outcome.next s : Host.Outcome State Fault Refusal) = .next t ↔ s = t := by simp

theorem finish_next {s t : State} {r : Except Cause State} :
    finish s r = .next t ↔ r = .ok t ∨ ∃ c, r = .error c ∧ t = s.raise c := by
  cases r <;> simp [finish, eq_comm]

/-- A handler that only ends through `finish` always answers a next state. -/
theorem finish_answers (s : State) (r : Except Cause State) : ∃ t, finish s r = .next t := by
  cases r <;> simp [finish]

theorem sourceToDest_next {w : Width} {op : BitVec w.bits → BitVec w.bits} {src dst : Operand} {s t : State}
    (h : sourceToDest w op src dst s = .next t) :
    (∃ c, t = s.raise c) ∨
      ∃ a l, resolveRead s src w = .ok a ∧ resolveLoc s dst w = .ok l ∧ t = s.store l w (op a) := by
  rcases finish_next.1 h with h | ⟨c, -, h⟩
  · split at h
    · cases h
    · rename_i a ha
      obtain ⟨l, hl, ht⟩ := resolveWrite_ok.1 h
      exact .inr ⟨a, l, ha, hl, ht⟩
  · exact .inl ⟨c, h⟩

theorem binaryOp_next {w : Width} {op : BitVec w.bits → BitVec w.bits → Except Cause (BitVec w.bits)} {a b dst : Operand}
    {s t : State} (h : binaryOp w op a b dst s = .next t) :
    (∃ c, t = s.raise c) ∨
      ∃ x y r l, resolveRead s a w = .ok x ∧ resolveRead s b w = .ok y ∧ op x y = .ok r ∧ resolveLoc s dst w = .ok l ∧
        t = s.store l w r := by
  rcases finish_next.1 h with h | ⟨c, -, h⟩
  · split at h
    · cases h
    · rename_i x hx
      split at h
      · cases h
      · rename_i y hy
        split at h
        · cases h
        · rename_i r hr
          obtain ⟨l, hl, ht⟩ := resolveWrite_ok.1 h
          exact .inr ⟨x, y, r, l, hx, hy, hr, hl, ht⟩
  · exact .inl ⟨c, h⟩

theorem extendOp_next {ext : (w tw : Width) → BitVec w.bits → BitVec tw.bits} {w : Width} {src dst : Operand} {sel : Word16}
    {s t : State} (h : extendOp ext w src dst sel s = .next t) :
    (∃ c, t = s.raise c) ∨
      ∃ tw a l, targetWidth sel = some tw ∧ resolveRead s src w = .ok a ∧ resolveLoc s dst tw = .ok l ∧
        t = s.store l tw (ext w tw a) := by
  rcases finish_next.1 h with h | ⟨c, -, h⟩
  · split at h
    · cases h
    · rename_i tw htw
      split at h
      · cases h
      · rename_i a ha
        obtain ⟨l, hl, ht⟩ := resolveWrite_ok.1 h
        exact .inr ⟨tw, a, l, htw, ha, hl, ht⟩
  · exact .inl ⟨c, h⟩

theorem compareOp_next {w : Width} {less : BitVec w.bits → BitVec w.bits → Bool} {a b : Operand} {s t : State}
    (h : compareOp w less a b s = .next t) :
    (∃ c, t = s.raise c) ∨
      ∃ x y, resolveRead s a w = .ok x ∧ resolveRead s b w = .ok y ∧ t = s.setFlags (compareEqual x y) (less x y) := by
  rcases finish_next.1 h with h | ⟨c, -, h⟩
  · split at h
    · cases h
    · rename_i x hx
      split at h
      · cases h
      · rename_i y hy
        cases h
        exact .inr ⟨x, y, hx, hy, rfl⟩
  · exact .inl ⟨c, h⟩

theorem execJmp_next {w : Width} {cc : Word16} {target : Operand} {s t : State} (h : execJmp w cc target s = .next t) :
    (∃ c, t = s.raise c) ∨
      ∃ taken v, condition cc s.equal s.less = some taken ∧ resolveRead s target .w2 = .ok v ∧
        t = if taken then s.setPc v else s := by
  rcases finish_next.1 h with h | ⟨c, -, h⟩
  · split at h
    · cases h
    · rename_i taken htaken
      split at h
      · cases h
      · rename_i v hv
        cases h
        exact .inr ⟨taken, v, htaken, hv, rfl⟩
  · exact .inl ⟨c, h⟩

theorem execStks_next {w : Width} {src : Operand} {s t : State} (h : execStks w src s = .next t) :
    (∃ c, t = s.raise c) ∨ ∃ v, resolveRead s src .w2 = .ok v ∧ t = s.setSp v := by
  rcases finish_next.1 h with h | ⟨c, -, h⟩
  · split at h
    · cases h
    · rename_i v hv
      cases h
      exact .inr ⟨v, hv, rfl⟩
  · exact .inl ⟨c, h⟩

theorem pushValue_ok {s t : State} {w : Width} {v : BitVec w.bits} :
    pushValue s w v = .ok t ↔
      s.sp.toNat + w.bytes ≤ s.memSize ∧ t = (s.putBytes s.sp.toNat w v).setSp (s.sp + BitVec.ofNat 16 w.bytes) := by
  simp only [pushValue]
  split
  · rename_i c hc
    have := (State.memWrite_error.1 hc).1
    simp; omega
  · rename_i u hu
    obtain ⟨h, rfl⟩ := State.memWrite_ok.1 hu
    simp [h, eq_comm]

theorem pushValue_error {s : State} {w : Width} {v : BitVec w.bits} {c : Cause} :
    pushValue s w v = .error c ↔ s.memSize < s.sp.toNat + w.bytes ∧ c = .memOutOfBounds := by
  simp only [pushValue]
  split
  · rename_i d hd
    obtain ⟨h, rfl⟩ := State.memWrite_error.1 hd
    simp [h, eq_comm]
  · rename_i u hu
    have := (State.memWrite_ok.1 hu).1
    simp; omega

theorem execPush_next {w : Width} {src : Operand} {s t : State} (h : execPush w src s = .next t) :
    (∃ c, t = s.raise c) ∨
      ∃ v, resolveRead s src w = .ok v ∧ s.sp.toNat + w.bytes ≤ s.memSize ∧
        t = (s.putBytes s.sp.toNat w v).setSp (s.sp + BitVec.ofNat 16 w.bytes) := by
  rcases finish_next.1 h with h | ⟨c, -, h⟩
  · split at h
    · cases h
    · rename_i v hv
      obtain ⟨hb, ht⟩ := pushValue_ok.1 h
      exact .inr ⟨v, hv, hb, ht⟩
  · exact .inl ⟨c, h⟩

theorem execPop_next {w : Width} {dst : Operand} {s t : State} (h : execPop w dst s = .next t) :
    (∃ c, t = s.raise c) ∨
      ∃ v l, s.memRead (s.sp - BitVec.ofNat 16 w.bytes).toNat w = .ok v ∧
        resolveLoc (s.setSp (s.sp - BitVec.ofNat 16 w.bytes)) dst w = .ok l ∧
        t = (s.setSp (s.sp - BitVec.ofNat 16 w.bytes)).store l w v := by
  rcases finish_next.1 h with h | ⟨c, -, h⟩
  · split at h
    · cases h
    · rename_i v hv
      obtain ⟨l, hl, ht⟩ := resolveWrite_ok.1 h
      exact .inr ⟨v, l, hv, hl, ht⟩
  · exact .inl ⟨c, h⟩

theorem execCall_next {w : Width} {target : Operand} {s t : State} (h : execCall w target s = .next t) :
    (∃ c, t = s.raise c) ∨
      ∃ v, resolveRead s target .w2 = .ok v ∧ s.sp.toNat + 2 ≤ s.memSize ∧
        t = ((s.putBytes s.sp.toNat .w2 s.pc).setSp (s.sp + 2#16)).setPc v := by
  rcases finish_next.1 h with h | ⟨c, -, h⟩
  · split at h
    · cases h
    · rename_i v hv
      split at h
      · cases h
      · rename_i u hu
        obtain ⟨hb, rfl⟩ := pushValue_ok.1 hu
        cases h
        exact .inr ⟨v, hv, hb, rfl⟩
  · exact .inl ⟨c, h⟩

theorem execRet_next {w : Width} {count : Operand} {s t : State} (h : execRet w count s = .next t) :
    (∃ c, t = s.raise c) ∨
      ∃ n ra, resolveRead s count w = .ok n ∧ s.memRead (s.sp - n.setWidth 16 - 2#16).toNat .w2 = .ok ra ∧
        t = (s.setSp (s.sp - n.setWidth 16 - 2#16)).setPc ra := by
  rcases finish_next.1 h with h | ⟨c, -, h⟩
  · split at h
    · cases h
    · rename_i n hn
      dsimp only at h
      split at h
      · cases h
      · rename_i ra hra
        cases h
        exact .inr ⟨n, ra, hn, hra, rfl⟩
  · exact .inl ⟨c, h⟩

theorem execHalt_next {w : Width} {s t : State} (h : execHalt w s = .next t) : t = s.raise .halt := by
  simpa [execHalt, eq_comm] using h

/-- The next input: a byte of the stream, consumed, or `EOF_BYTE` at end-of-stream, or no answer yet. -/
theorem nextInput_cases (s : State) :
    (∃ b, s.input[s.inPos]? = some b ∧ s.nextInput = some (b, s.consume)) ∨
      (s.input.length ≤ s.inPos ∧ s.inputEnded = true ∧ s.nextInput = some (Config.eofByte, s)) ∨
      (s.InputBlocked ∧ s.nextInput = none) := by
  simp only [State.nextInput]
  split
  · rename_i b hb; exact .inl ⟨b, hb, rfl⟩
  · rename_i hb
    rw [List.getElem?_eq_none_iff] at hb
    cases h : s.inputEnded
    · exact .inr (.inr ⟨⟨hb, h⟩, by simp⟩)
    · exact .inr (.inl ⟨hb, rfl, by simp⟩)

theorem execGetc_next {w : Width} {dst : Operand} {s t : State} (h : execGetc w dst s = .next t) :
    (∃ c, t = s.raise c) ∨
      ∃ l b u, resolveLoc s dst .w1 = .ok l ∧ s.nextInput = some (b, u) ∧ t = u.store l .w1 b := by
  simp only [execGetc] at h
  split at h
  · rename_i c hc
    cases h; exact .inl ⟨c, rfl⟩
  · rename_i l hl
    split at h
    · cases h
    · rename_i b u hu
      cases h
      exact .inr ⟨l, b, u, hl, hu, rfl⟩

/-- `getc_` answers no next state only where its destination resolves and the host has not answered. -/
theorem execGetc_waits {w : Width} {dst : Operand} {s : State} {f : Fault} (h : execGetc w dst s = .fault f) :
    f = .awaitingInput ∧ s.InputBlocked := by
  simp only [execGetc] at h
  split at h
  · cases h
  · split at h
    · rename_i hn
      cases h
      rcases nextInput_cases s with ⟨b, -, h'⟩ | ⟨-, -, h'⟩ | ⟨hb, -⟩
      · simp [h'] at hn
      · simp [h'] at hn
      · exact ⟨rfl, hb⟩
    · cases h

theorem execPutc_next {w : Width} {src : Operand} {s t : State} (h : execPutc w src s = .next t) :
    (∃ c, t = s.raise c) ∨ ∃ v, resolveRead s src w = .ok v ∧ t = s.emit (v.setWidth 8) := by
  rcases finish_next.1 h with h | ⟨c, -, h⟩
  · split at h
    · cases h
    · rename_i v hv
      cases h
      exact .inr ⟨v, hv, rfl⟩
  · exact .inl ⟨c, h⟩

/-- Everything `exec` can do when it answers a next state, one constructor per kind of effect. -/
inductive ExecEffect : Instr → State → State → Prop where
  | fault {i s} (c : Cause) : ExecEffect i s (s.raise c)
  | stored {i s o w l} (v : BitVec w.bits) (hd : destination i = some (o, w)) (hs : destinationState i s = s)
      (hl : resolveLoc s o w = .ok l) : ExecEffect i s (s.store l w v)
  | popped {w dst s l} (v : BitVec w.bits) (hl : resolveLoc (s.setSp (s.sp - BitVec.ofNat 16 w.bytes)) dst w = .ok l) :
      ExecEffect (.pop w dst) s ((s.setSp (s.sp - BitVec.ofNat 16 w.bytes)).store l w v)
  | input {w dst s l b u} (hl : resolveLoc s dst .w1 = .ok l) (hu : s.nextInput = some (b, u)) :
      ExecEffect (.getc_ w dst) s (u.store l .w1 b)
  | jumped {w cc target s} (v : Word16) : ExecEffect (.jmp w cc target) s (s.setPc v)
  | notJumped {w cc target s} : ExecEffect (.jmp w cc target) s s
  | stackSet {w src s} (v : Word16) : ExecEffect (.stks w src) s (s.setSp v)
  | pushed {w src s} (v : BitVec w.bits) (hb : s.sp.toNat + w.bytes ≤ s.memSize) :
      ExecEffect (.push w src) s ((s.putBytes s.sp.toNat w v).setSp (s.sp + BitVec.ofNat 16 w.bytes))
  | called {w target s} (v : Word16) (hb : s.sp.toNat + 2 ≤ s.memSize) :
      ExecEffect (.call w target) s (((s.putBytes s.sp.toNat .w2 s.pc).setSp (s.sp + 2#16)).setPc v)
  | returned {w count s} (a ra : Word16) : ExecEffect (.ret w count) s ((s.setSp a).setPc ra)
  | emitted {w src s} (b : Byte) : ExecEffect (.putc_ w src) s (s.emit b)
  | comparedUnsigned {w a b s} (e l : Bool) (h : e = true → l = false) : ExecEffect (.ucmp w a b) s (s.setFlags e l)
  | comparedSigned {w a b s} (e l : Bool) (h : e = true → l = false) : ExecEffect (.icmp w a b) s (s.setFlags e l)

theorem sourceToDest_effect {i : Instr} {w : Width} {op : BitVec w.bits → BitVec w.bits} {src dst : Operand} {s t : State}
    (hd : destination i = some (dst, w)) (hs : destinationState i s = s) (h : sourceToDest w op src dst s = .next t) :
    ExecEffect i s t := by
  rcases sourceToDest_next h with ⟨c, rfl⟩ | ⟨a, l, -, hl, rfl⟩
  · exact .fault c
  · exact .stored _ hd hs hl

theorem binaryOp_effect {i : Instr} {w : Width} {op : BitVec w.bits → BitVec w.bits → Except Cause (BitVec w.bits)}
    {a b dst : Operand} {s t : State} (hd : destination i = some (dst, w)) (hs : destinationState i s = s)
    (h : binaryOp w op a b dst s = .next t) : ExecEffect i s t := by
  rcases binaryOp_next h with ⟨c, rfl⟩ | ⟨x, y, r, l, -, -, -, hl, rfl⟩
  · exact .fault c
  · exact .stored _ hd hs hl

/-- What `exec` did when it answered a next state. -/
theorem exec_effect {i : Instr} {s t : State} (h : exec i s = .next t) : ExecEffect i s t := by
  cases i with
  | mov w src dst => exact sourceToDest_effect rfl rfl h
  | neg w src dst => exact sourceToDest_effect rfl rfl h
  | pos w src dst => exact sourceToDest_effect rfl rfl h
  | lnot w src dst => exact sourceToDest_effect rfl rfl h
  | bnot w src dst => exact sourceToDest_effect rfl rfl h
  | add w a b dst => exact binaryOp_effect (op := fun x y => .ok (aluAdd x y)) rfl rfl h
  | sub w a b dst => exact binaryOp_effect (op := fun x y => .ok (aluSub x y)) rfl rfl h
  | mul w a b dst => exact binaryOp_effect (op := fun x y => .ok (aluMul x y)) rfl rfl h
  | udiv w a b dst => exact binaryOp_effect rfl rfl h
  | idiv w a b dst => exact binaryOp_effect rfl rfl h
  | shl w a b dst => exact binaryOp_effect (op := fun x y => .ok (aluShl x y)) rfl rfl h
  | shr w a b dst => exact binaryOp_effect (op := fun x y => .ok (aluShr x y)) rfl rfl h
  | sal w a b dst => exact binaryOp_effect (op := fun x y => .ok (aluSal x y)) rfl rfl h
  | sar w a b dst => exact binaryOp_effect (op := fun x y => .ok (aluSar x y)) rfl rfl h
  | and w a b dst => exact binaryOp_effect (op := fun x y => .ok (aluAnd x y)) rfl rfl h
  | or w a b dst => exact binaryOp_effect (op := fun x y => .ok (aluOr x y)) rfl rfl h
  | xor w a b dst => exact binaryOp_effect (op := fun x y => .ok (aluXor x y)) rfl rfl h
  | sxu w src dst sel =>
    rcases extendOp_next h with ⟨c, rfl⟩ | ⟨tw, a, l, htw, -, hl, rfl⟩
    · exact .fault c
    · exact .stored _ (by simp [destination, htw]) rfl hl
  | sxi w src dst sel =>
    rcases extendOp_next h with ⟨c, rfl⟩ | ⟨tw, a, l, htw, -, hl, rfl⟩
    · exact .fault c
    · exact .stored _ (by simp [destination, htw]) rfl hl
  | jmp w cc target =>
    rcases execJmp_next (w := w) h with ⟨c, rfl⟩ | ⟨taken, v, -, -, rfl⟩
    · exact .fault c
    · cases taken
      · exact .notJumped
      · exact .jumped v
  | stks w src =>
    rcases execStks_next (w := w) h with ⟨c, rfl⟩ | ⟨v, -, rfl⟩
    · exact .fault c
    · exact .stackSet v
  | push w src =>
    rcases execPush_next h with ⟨c, rfl⟩ | ⟨v, -, hb, rfl⟩
    · exact .fault c
    · exact .pushed v hb
  | pop w dst =>
    rcases execPop_next h with ⟨c, rfl⟩ | ⟨v, l, -, hl, rfl⟩
    · exact .fault c
    · exact .popped v hl
  | call w target =>
    rcases execCall_next (w := w) h with ⟨c, rfl⟩ | ⟨v, -, hb, rfl⟩
    · exact .fault c
    · exact .called v hb
  | ret w count =>
    rcases execRet_next h with ⟨c, rfl⟩ | ⟨n, ra, -, -, rfl⟩
    · exact .fault c
    · exact .returned _ _
  | halt w =>
    cases execHalt_next (w := w) h
    exact .fault .halt
  | getc_ w dst =>
    rcases execGetc_next (w := w) h with ⟨c, rfl⟩ | ⟨l, b, u, hl, hu, rfl⟩
    · exact .fault c
    · exact .input hl hu
  | putc_ w src =>
    rcases execPutc_next h with ⟨c, rfl⟩ | ⟨v, -, rfl⟩
    · exact .fault c
    · exact .emitted _
  | ucmp w a b =>
    rcases compareOp_next h with ⟨c, rfl⟩ | ⟨x, y, -, -, rfl⟩
    · exact .fault c
    · exact .comparedUnsigned _ _ (by simp [compareEqual, compareLessUnsigned]; rintro rfl; exact le_refl _)
  | icmp w a b =>
    rcases compareOp_next h with ⟨c, rfl⟩ | ⟨x, y, -, -, rfl⟩
    · exact .fault c
    · exact .comparedSigned _ _ (by simp [compareEqual, compareLessSigned]; rintro rfl; exact le_refl _)

end Sys2Proof.Machine
end

