-- ==== Sys2Proof/Laws/PerInstr.lean ====
section
/-! SUPPORT. One lemma per instruction: its fields are as many as its format asks for, and put together again they are the
instruction (R89). -/

namespace Sys2Proof.Laws.EncodedShape

/-- The fields of the instruction are those of its format, and assemble to it. -/
def Statement (i : Instr) : Prop :=
  i.fields.length = i.mnemonic.fieldCount ∧ assemble i.mnemonic i.width i.fields = i

theorem mov (w : Width) (src dst : Operand) : Statement (.mov w src dst) :=
  ⟨rfl, by simp [assemble, Instr.mnemonic, Instr.width, Instr.fields]⟩

theorem add (w : Width) (a b dst : Operand) : Statement (.add w a b dst) :=
  ⟨rfl, by simp [assemble, Instr.mnemonic, Instr.width, Instr.fields]⟩

theorem sub (w : Width) (a b dst : Operand) : Statement (.sub w a b dst) :=
  ⟨rfl, by simp [assemble, Instr.mnemonic, Instr.width, Instr.fields]⟩

theorem mul (w : Width) (a b dst : Operand) : Statement (.mul w a b dst) :=
  ⟨rfl, by simp [assemble, Instr.mnemonic, Instr.width, Instr.fields]⟩

theorem udiv (w : Width) (a b dst : Operand) : Statement (.udiv w a b dst) :=
  ⟨rfl, by simp [assemble, Instr.mnemonic, Instr.width, Instr.fields]⟩

theorem idiv (w : Width) (a b dst : Operand) : Statement (.idiv w a b dst) :=
  ⟨rfl, by simp [assemble, Instr.mnemonic, Instr.width, Instr.fields]⟩

theorem shl (w : Width) (a b dst : Operand) : Statement (.shl w a b dst) :=
  ⟨rfl, by simp [assemble, Instr.mnemonic, Instr.width, Instr.fields]⟩

theorem shr (w : Width) (a b dst : Operand) : Statement (.shr w a b dst) :=
  ⟨rfl, by simp [assemble, Instr.mnemonic, Instr.width, Instr.fields]⟩

theorem sal (w : Width) (a b dst : Operand) : Statement (.sal w a b dst) :=
  ⟨rfl, by simp [assemble, Instr.mnemonic, Instr.width, Instr.fields]⟩

theorem sar (w : Width) (a b dst : Operand) : Statement (.sar w a b dst) :=
  ⟨rfl, by simp [assemble, Instr.mnemonic, Instr.width, Instr.fields]⟩

theorem and (w : Width) (a b dst : Operand) : Statement (.and w a b dst) :=
  ⟨rfl, by simp [assemble, Instr.mnemonic, Instr.width, Instr.fields]⟩

theorem or (w : Width) (a b dst : Operand) : Statement (.or w a b dst) :=
  ⟨rfl, by simp [assemble, Instr.mnemonic, Instr.width, Instr.fields]⟩

theorem xor (w : Width) (a b dst : Operand) : Statement (.xor w a b dst) :=
  ⟨rfl, by simp [assemble, Instr.mnemonic, Instr.width, Instr.fields]⟩

theorem neg (w : Width) (src dst : Operand) : Statement (.neg w src dst) :=
  ⟨rfl, by simp [assemble, Instr.mnemonic, Instr.width, Instr.fields]⟩

theorem pos (w : Width) (src dst : Operand) : Statement (.pos w src dst) :=
  ⟨rfl, by simp [assemble, Instr.mnemonic, Instr.width, Instr.fields]⟩

theorem lnot (w : Width) (src dst : Operand) : Statement (.lnot w src dst) :=
  ⟨rfl, by simp [assemble, Instr.mnemonic, Instr.width, Instr.fields]⟩

theorem bnot (w : Width) (src dst : Operand) : Statement (.bnot w src dst) :=
  ⟨rfl, by simp [assemble, Instr.mnemonic, Instr.width, Instr.fields]⟩

theorem sxu (w : Width) (src dst : Operand) (sel : Word16) : Statement (.sxu w src dst sel) :=
  ⟨rfl, by simp [assemble, Instr.mnemonic, Instr.width, Instr.fields]⟩

theorem sxi (w : Width) (src dst : Operand) (sel : Word16) : Statement (.sxi w src dst sel) :=
  ⟨rfl, by simp [assemble, Instr.mnemonic, Instr.width, Instr.fields]⟩

theorem jmp (w : Width) (cc : Word16) (target : Operand) : Statement (.jmp w cc target) :=
  ⟨rfl, by simp [assemble, Instr.mnemonic, Instr.width, Instr.fields]⟩

theorem stks (w : Width) (src : Operand) : Statement (.stks w src) :=
  ⟨rfl, by simp [assemble, Instr.mnemonic, Instr.width, Instr.fields]⟩

theorem push (w : Width) (src : Operand) : Statement (.push w src) :=
  ⟨rfl, by simp [assemble, Instr.mnemonic, Instr.width, Instr.fields]⟩

theorem pop (w : Width) (dst : Operand) : Statement (.pop w dst) :=
  ⟨rfl, by simp [assemble, Instr.mnemonic, Instr.width, Instr.fields]⟩

theorem call (w : Width) (target : Operand) : Statement (.call w target) :=
  ⟨rfl, by simp [assemble, Instr.mnemonic, Instr.width, Instr.fields]⟩

theorem ret (w : Width) (count : Operand) : Statement (.ret w count) :=
  ⟨rfl, by simp [assemble, Instr.mnemonic, Instr.width, Instr.fields]⟩

theorem halt (w : Width) : Statement (.halt w) :=
  ⟨rfl, rfl⟩

theorem getc_ (w : Width) (dst : Operand) : Statement (.getc_ w dst) :=
  ⟨rfl, by simp [assemble, Instr.mnemonic, Instr.width, Instr.fields]⟩

theorem putc_ (w : Width) (src : Operand) : Statement (.putc_ w src) :=
  ⟨rfl, by simp [assemble, Instr.mnemonic, Instr.width, Instr.fields]⟩

theorem ucmp (w : Width) (a b : Operand) : Statement (.ucmp w a b) :=
  ⟨rfl, by simp [assemble, Instr.mnemonic, Instr.width, Instr.fields]⟩

theorem icmp (w : Width) (a b : Operand) : Statement (.icmp w a b) :=
  ⟨rfl, by simp [assemble, Instr.mnemonic, Instr.width, Instr.fields]⟩

end Sys2Proof.Laws.EncodedShape
end

