-- ==== Sys2Proof/Laws/Step.lean ====
section
/-! SUPPORT. What the fetch stage and a step can do (R110, R111, R113). -/

namespace Sys2Proof.Machine

theorem fetchField_some {s t : State} {f : Word16} :
    fetchField s = some (f, t) ↔
      s.pc.toNat + 2 ≤ s.memSize ∧ f = fieldOfBytes (s.mem.read s.pc.toNat) (s.mem.read (s.pc.toNat + 1)) ∧
        t = s.setPc (s.pc + 2#16) := by
  by_cases h : s.pc.toNat + 2 ≤ s.memSize <;> simp [fetchField, State.inBounds, h, eq_comm]

theorem fetchField_none {s : State} : fetchField s = none ↔ s.memSize < s.pc.toNat + 2 := by
  by_cases h : s.pc.toNat + 2 ≤ s.memSize <;> simp [fetchField, State.inBounds, h]
  omega

/-- A fetch of fields moves `pc` and does nothing else, except to raise the fault it met. -/
theorem fetchFields_cases (k : Nat) (s : State) :
    (∃ fs, fs.length = k ∧ fetchFields k s = .ok (fs, s.setPc (s.pc + BitVec.ofNat 16 (2 * k)))) ∨
      ∃ j, j < k ∧ fetchFields k s = .error ((s.setPc (s.pc + BitVec.ofNat 16 (2 * j))).raise .memOutOfBounds) := by
  induction k generalizing s with
  | zero =>
    refine .inl ⟨[], rfl, ?_⟩
    simp [fetchFields, State.setPc_self]
  | succ k ih =>
    cases hf : fetchField s with
    | none => exact .inr ⟨0, by omega, by simp [fetchFields, hf, State.setPc_self]⟩
    | some x =>
      obtain ⟨f, t⟩ := x
      obtain ⟨-, -, rfl⟩ := fetchField_some.1 hf
      rcases ih (s.setPc (s.pc + 2#16)) with ⟨fs, hl, h⟩ | ⟨j, hj, h⟩
      · refine .inl ⟨f :: fs, by simp [hl], ?_⟩
        simp only [fetchFields, hf, h, State.setPc_setPc, State.pc_setPc]
        congr 3
        rw [BitVec.add_assoc]; congr 1
        apply BitVec.eq_of_toNat_eq; simp; omega
      · refine .inr ⟨j + 1, by omega, ?_⟩
        simp only [fetchFields, hf, h, State.setPc_setPc, State.pc_setPc]
        congr 3
        rw [BitVec.add_assoc]; congr 1
        apply BitVec.eq_of_toNat_eq; simp; omega

theorem mnemonic_assemble (m : Mnemonic) (w : Width) (fs : List Word16) : (assemble m w fs).mnemonic = m := by
  cases m <;> rfl

/-- All the fetch stage can do: fault on the opcode byte; fault later, with `cycles` counted and `pc` moved past what was fetched; or
give an instruction with `pc` past all of it. -/
theorem fetch_cases (s : State) :
    (s.memSize ≤ s.pc.toNat ∧ fetch s = .error (s.raise .memOutOfBounds)) ∨
      (s.pc.toNat < s.memSize ∧ ∃ n c, n ≤ 7 ∧ fetch s = .error ((s.afterFetch n).raise c)) ∨
      (s.pc.toNat < s.memSize ∧ ∃ i, fetch s = .ok (i, s.afterFetch i.length)) := by
  by_cases hb : s.pc.toNat < s.memSize
  · refine .inr ?_
    simp only [hb, true_and]
    have hin : s.inBounds s.pc.toNat 1 = true := by simpa [State.inBounds] using hb
    unfold fetch
    rw [if_pos hin]
    dsimp only
    cases hm : mnemonicOfByte (s.mem.read s.pc.toNat) with
    | none => exact .inl ⟨1, .decodeFault, by omega, rfl⟩
    | some m =>
      have hadv (j : Nat) : (s.afterFetch 1).setPc ((s.afterFetch 1).pc + BitVec.ofNat 16 (2 * j)) = s.afterFetch (1 + 2 * j) := by
        simp only [State.afterFetch, State.pc_setPc, State.setPc_setPc, BitVec.add_assoc, ← BitVec.ofNat_add]
      have hk : m.fieldCount ≤ 3 := by cases m <;> decide
      rcases fetchFields_cases m.fieldCount (s.afterFetch 1) with ⟨fs, -, h⟩ | ⟨j, hj, h⟩
      · refine .inr ⟨assemble m (widthOfByte (s.mem.read s.pc.toNat)) fs, ?_⟩
        simp only [h, hadv, Instr.length, mnemonic_assemble]
      · exact .inl ⟨1 + 2 * j, .memOutOfBounds, by omega, by simp only [h, hadv]⟩
  · refine .inl ⟨by omega, ?_⟩
    unfold fetch
    rw [if_neg (by simpa [State.inBounds] using hb)]

/-- All a step that answers a next state can do. -/
theorem step_next {s t : State} (h : step s = .next t) :
    s.running = true ∧
      ((s.memSize ≤ s.pc.toNat ∧ t = s.raise .memOutOfBounds) ∨
        (s.pc.toNat < s.memSize ∧ ∃ n c, n ≤ 7 ∧ t = (s.afterFetch n).raise c) ∨
        (s.pc.toNat < s.memSize ∧ ∃ i, exec i (s.afterFetch i.length) = .next t)) := by
  unfold step at h
  split at h
  · cases h
  · rename_i hr
    refine ⟨hr, ?_⟩
    rcases fetch_cases s with ⟨hb, hf⟩ | ⟨hb, n, c, hn, hf⟩ | ⟨hb, i, hf⟩
    · rw [hf] at h; cases h; exact .inl ⟨hb, rfl⟩
    · rw [hf] at h; cases h; exact .inr (.inl ⟨hb, n, c, hn, rfl⟩)
    · rw [hf] at h; exact .inr (.inr ⟨hb, i, h⟩)

@[simp] theorem State.pc_afterFetch (s : State) (n : Nat) : (s.afterFetch n).pc = s.pc + BitVec.ofNat 16 n := by
  simp [State.afterFetch]

/-- The fetch advance moves the low 16 bits of `cur` and counts one cycle; nothing else of the state is another. -/
theorem State.afterFetch_eq (s : State) (n : Nat) :
    s.afterFetch n = { s with regs := (s.afterFetch n).regs, cycles := s.cycles + 1 } := rfl

end Sys2Proof.Machine
end

