-- ==== Sys2Proof/Tests/Slice0.lean ====
section
/-! SUPPORT. Tests on single steps, and a witness for the hypotheses of every statement. Expected results are the spec's own: `V<n>`
and `S<n>` are vectors of spec/95_test_vectors.md. -/

namespace Sys2Proof.Tests

open Sys2Proof Sys2Proof.Machine

/-- A state's memory with bytes put at an address. -/
def put (s : State) (a : Nat) (bs : List Byte) : State := { s with mem := s.mem.writeBytes a bs }

/-- The reset state with an instruction at address 0. -/
def start (bs : List Byte) : State := put State.reset 0 bs

/-- A state with a register set. -/
def reg (s : State) (r : Reg) (v : Word64) : State := { s with regs := s.regs.set r v }

/-- A value of the next state, where the outcome is one. -/
def out {α : Type} (o : Host.Outcome State Fault Refusal) (f : State → α) : Option α :=
  match o with
  | .next t => some (f t)
  | _ => none

/-- One step from a state. -/
def after {α : Type} (s : State) (f : State → α) : Option α := out (step s) f

/-- `n` bytes of memory from an address on. -/
def bytes (s : State) (a n : Nat) : List Byte := (List.range n).map fun k => s.mem.read (a + k)

/-! ## Well-formedness: a term refused by each check, beside one it accepts -/

theorem test_wellFormed_source_register : (Instr.mov .w2 (.reg 6) (.reg 0)).wellFormed = false := by decide
theorem test_wellFormed_source_indirect : (Instr.push .w2 (.ind 6)).wellFormed = false := by decide
theorem test_wellFormed_dest_immediate : (Instr.pop .w2 (.imm 0)).wellFormed = false := by decide
theorem test_wellFormed_dest_register : (Instr.add .w2 (.imm 0) (.imm 0) (.reg 6)).wellFormed = false := by decide
theorem test_wellFormed_dest_indirect : (Instr.getc_ .w1 (.ind 6)).wellFormed = false := by decide
theorem test_wellFormed_condition : (Instr.jmp .w1 7 (.imm 0)).wellFormed = false := by decide
theorem test_wellFormed_selector : (Instr.sxu .w1 (.imm 0) (.reg 0) 4).wellFormed = false := by decide
theorem test_wellFormed_accepts :
    (Instr.mov .w2 (.ind 5) (.reg 5)).wellFormed ∧ (Instr.jmp .w1 6 (.imm 0)).wellFormed ∧
      (Instr.sxi .w1 (.mem 0) (.ind 5) 3).wellFormed := by decide

/-! ## Decoding: for every constructor, bytes written out from R81, R84, R89 and R92 -/

theorem test_decode_mov : decode [0x40, 0x12, 0x34, 0x80, 0x00] = .ok (.mov .w2 (.imm 0x1234) (.reg 0), []) := by decide
theorem test_decode_add :
    decode [0xC1, 0x80, 0x04, 0x40, 0x10, 0xC0, 0x01] = .ok (.add .w8 (.reg 4) (.mem 0x10) (.ind 1), []) := by decide
theorem test_decode_sub : decode [0x82, 0x80, 0x02, 0x00, 0x04, 0x80, 0x00] = .ok (.sub .w4 (.reg 2) (.imm 4) (.reg 0), []) := by decide
theorem test_decode_mul :
    decode [0x43, 0x01, 0x2C, 0x01, 0x2D, 0x80, 0x00] = .ok (.mul .w2 (.imm 300) (.imm 301) (.reg 0), []) := by decide
theorem test_decode_udiv : decode [0x44, 0x00, 0x07, 0x00, 0x02, 0x80, 0x00] = .ok (.udiv .w2 (.imm 7) (.imm 2) (.reg 0), []) := by decide
theorem test_decode_idiv :
    decode [0x05, 0x00, 0xF9, 0x00, 0x02, 0x80, 0x00] = .ok (.idiv .w1 (.imm 0xF9) (.imm 2) (.reg 0), []) := by decide
theorem test_decode_shl : decode [0xC6, 0x00, 0x01, 0x00, 0x3F, 0x80, 0x00] = .ok (.shl .w8 (.imm 1) (.imm 63) (.reg 0), []) := by decide
theorem test_decode_shr :
    decode [0x47, 0x20, 0x00, 0x00, 0x0D, 0x80, 0x00] = .ok (.shr .w2 (.imm 0x2000) (.imm 13) (.reg 0), []) := by decide
theorem test_decode_sal :
    decode [0x08, 0x00, 0x41, 0x00, 0x01, 0x80, 0x00] = .ok (.sal .w1 (.imm 0x41) (.imm 1) (.reg 0), []) := by decide
theorem test_decode_sar : decode [0xC9, 0x80, 0x00, 0x00, 0x01, 0x80, 0x01] = .ok (.sar .w8 (.reg 0) (.imm 1) (.reg 1), []) := by decide
theorem test_decode_and :
    decode [0x4A, 0x0F, 0xF0, 0x3C, 0x3C, 0x80, 0x00] = .ok (.and .w2 (.imm 0x0FF0) (.imm 0x3C3C) (.reg 0), []) := by decide
theorem test_decode_or :
    decode [0x4B, 0x0F, 0xF0, 0x3C, 0x3C, 0x80, 0x00] = .ok (.or .w2 (.imm 0x0FF0) (.imm 0x3C3C) (.reg 0), []) := by decide
theorem test_decode_xor :
    decode [0x4C, 0x0F, 0xF0, 0x3C, 0x3C, 0x80, 0x00] = .ok (.xor .w2 (.imm 0x0FF0) (.imm 0x3C3C) (.reg 0), []) := by decide
theorem test_decode_neg : decode [0x0D, 0x00, 0x80, 0x80, 0x00] = .ok (.neg .w1 (.imm 0x80) (.reg 0), []) := by decide
theorem test_decode_pos : decode [0x4E, 0x12, 0x34, 0x80, 0x00] = .ok (.pos .w2 (.imm 0x1234) (.reg 0), []) := by decide
theorem test_decode_lnot : decode [0x4F, 0x01, 0x00, 0x80, 0x00] = .ok (.lnot .w2 (.imm 0x100) (.reg 0), []) := by decide
theorem test_decode_bnot : decode [0x10, 0x00, 0x0F, 0x80, 0x00] = .ok (.bnot .w1 (.imm 0x0F) (.reg 0), []) := by decide
theorem test_decode_sxu : decode [0x11, 0x80, 0x00, 0x80, 0x01, 0x80, 0x00] = .ok (.sxu .w1 (.reg 0) (.reg 1) 0x8000, []) := by decide
theorem test_decode_sxi : decode [0x92, 0x80, 0x00, 0x42, 0x00, 0x00, 0x01] = .ok (.sxi .w4 (.reg 0) (.mem 0x200) 1, []) := by decide
theorem test_decode_jmp : decode [0x13, 0x00, 0x04, 0x00, 0x0A] = .ok (.jmp .w1 4 (.imm 10), []) := by decide
theorem test_decode_stks : decode [0x14, 0x01, 0x00] = .ok (.stks .w1 (.imm 0x100), []) := by decide
theorem test_decode_push : decode [0xD5, 0x80, 0x00] = .ok (.push .w8 (.reg 0), []) := by decide
theorem test_decode_pop : decode [0x56, 0x80, 0x01] = .ok (.pop .w2 (.reg 1), []) := by decide
theorem test_decode_call : decode [0x17, 0x00, 0x10] = .ok (.call .w1 (.imm 16), []) := by decide
theorem test_decode_ret : decode [0x58, 0x80, 0x00] = .ok (.ret .w2 (.reg 0), []) := by decide
theorem test_decode_halt : decode [0xD9] = .ok (.halt .w8, []) := by decide
theorem test_decode_getc_ : decode [0x1A, 0x41, 0x00] = .ok (.getc_ .w1 (.mem 0x100), []) := by decide
theorem test_decode_putc_ : decode [0x5B, 0xC0, 0x01] = .ok (.putc_ .w2 (.ind 1), []) := by decide
theorem test_decode_ucmp : decode [0x5C, 0x80, 0x00, 0x80, 0x01] = .ok (.ucmp .w2 (.reg 0) (.reg 1), []) := by decide
theorem test_decode_icmp : decode [0x1D, 0x00, 0x80, 0x00, 0x01] = .ok (.icmp .w1 (.imm 0x80) (.imm 1), []) := by decide
theorem test_decode_unassigned : decode [0xBF] = .error (.unassigned 63) := by decide

/-- The opcode table numbers an instruction's bits from its first byte on. -/
theorem test_decodeTableWord : decodeTableWord 40 0x0480050000 = some (.mov .w1 (.imm 5) (.reg 4)) := by decide

/-! ## One step of each instruction -/

/-- V4. -/
theorem test_mov_keeps_the_upper_bytes :
    after (reg (start [0x00, 0x00, 0xAA, 0x80, 0x00]) .aaa 0x1122334455667788) (fun t => t.regs.aaa) = some 0x11223344556677AA :=
  by decide
/-- V8. -/
theorem test_mov_reads_all_before_it_writes :
    after (put (start [0xC0, 0x40, 0x10, 0x40, 0x14]) 0x10 [1, 2, 3, 4, 5, 6, 7, 8, 9, 10, 11, 12])
      (fun t => bytes t 0x10 12) = some [1, 2, 3, 4, 1, 2, 3, 4, 5, 6, 7, 8] := by decide
/-- V21. -/
theorem test_add_wraps :
    after (start [0x01, 0x00, 0xFF, 0x00, 0x01, 0x80, 0x00]) (fun t => (t.regs.aaa, t.pc, t.cycles)) = some (0, 7, 1) :=
  by decide
/-- V26. -/
theorem test_add_source_is_destination :
    after (reg (start [0x41, 0x80, 0x04, 0x80, 0x04, 0x80, 0x04]) .acc 0x8001) (fun t => t.regs.acc) = some 2 :=
  by decide
/-- V22. -/
theorem test_sub : after (start [0x42, 0x00, 0x05, 0x00, 0x07, 0x80, 0x00]) (fun t => t.regs.aaa) = some 0xFFFE := by decide
/-- V24. -/
theorem test_mul_keeps_the_low_half :
    after (start [0x43, 0x01, 0x2C, 0x01, 0x2C, 0x80, 0x00]) (fun t => t.regs.aaa) = some 0x5F90 :=
  by decide
/-- V28. -/
theorem test_udiv : after (start [0x04, 0x00, 0xF9, 0x00, 0x02, 0x80, 0x00]) (fun t => t.regs.aaa) = some 0x7C := by decide
/-- V29. -/
theorem test_udiv_by_zero :
    after (reg (start [0x44, 0x00, 0x07, 0x00, 0x00, 0x80, 0x00]) .aaa 0xBEEF)
      (fun t => (t.faultCause, t.regs.aaa, t.pc)) = some (some .divideByZero, 0xBEEF, 7) := by decide
/-- V31. -/
theorem test_idiv_rounds_toward_zero :
    after (start [0x05, 0x00, 0x07, 0x00, 0xFE, 0x80, 0x00]) (fun t => t.regs.aaa) = some 0xFD :=
  by decide
/-- V34. -/
theorem test_idiv_zero_before_destination :
    after (start [0x05, 0x00, 0x01, 0x00, 0x00, 0x00, 0x00]) (fun t => t.faultCause) = some (some .divideByZero) :=
  by decide
/-- V36. -/
theorem test_shl_count_modulo_width : after (start [0x46, 0x00, 0x01, 0x00, 0x11, 0x80, 0x00]) (fun t => t.regs.aaa) = some 2 := by decide
/-- V38. -/
theorem test_shl_by_the_width : after (start [0xC6, 0x00, 0x01, 0x00, 0x40, 0x80, 0x00]) (fun t => t.regs.aaa) = some 1 := by decide
/-- V39. -/
theorem test_shr_is_logical : after (start [0x07, 0x00, 0x81, 0x00, 0x01, 0x80, 0x00]) (fun t => t.regs.aaa) = some 0x40 := by decide
/-- V43. -/
theorem test_sal : after (start [0x08, 0x00, 0x41, 0x00, 0x01, 0x80, 0x00]) (fun t => t.regs.aaa) = some 0x82 := by decide
/-- V42. -/
theorem test_sar_is_arithmetic :
    after (reg (start [0x49, 0x80, 0x00, 0x00, 0x02, 0x80, 0x00]) .aaa 0x8000) (fun t => t.regs.aaa) = some 0xE000 :=
  by decide
/-- V45. -/
theorem test_and : after (start [0x4A, 0x0F, 0xF0, 0x3C, 0x3C, 0x80, 0x00]) (fun t => t.regs.aaa) = some 0x0C30 := by decide
/-- V46. -/
theorem test_or : after (start [0x4B, 0x0F, 0xF0, 0x3C, 0x3C, 0x80, 0x00]) (fun t => t.regs.aaa) = some 0x3FFC := by decide
/-- V47. -/
theorem test_xor : after (start [0x4C, 0x0F, 0xF0, 0x3C, 0x3C, 0x80, 0x00]) (fun t => t.regs.aaa) = some 0x33CC := by decide
/-- V50. -/
theorem test_neg_most_negative : after (start [0x0D, 0x00, 0x80, 0x80, 0x00]) (fun t => t.regs.aaa) = some 0x80 := by decide
/-- V52. -/
theorem test_neg_zero : after (reg (start [0x4D, 0x00, 0x00, 0x80, 0x00]) .aaa 0x7777) (fun t => t.regs.aaa) = some 0 := by decide
/-- V53. -/
theorem test_pos : after (start [0x4E, 0x12, 0x34, 0x80, 0x00]) (fun t => t.regs.aaa) = some 0x1234 := by decide
/-- V54. -/
theorem test_lnot_width_one_immediate : after (start [0x0F, 0x01, 0x00, 0x80, 0x00]) (fun t => t.regs.aaa) = some 1 := by decide
/-- V55. -/
theorem test_lnot_nonzero : after (reg (start [0x4F, 0x01, 0x00, 0x80, 0x00]) .aaa 0xFFFF) (fun t => t.regs.aaa) = some 0 := by decide
/-- V58. -/
theorem test_bnot : after (start [0x10, 0x00, 0x0F, 0x80, 0x00]) (fun t => t.regs.aaa) = some 0xF0 := by decide
/-- V64. -/
theorem test_sxu_narrows :
    after (reg (start [0x51, 0x12, 0x34, 0x80, 0x00, 0x00, 0x00]) .aaa 0xFFFF) (fun t => t.regs.aaa) = some 0xFF34 :=
  by decide
/-- V67. -/
theorem test_sxu_selector_is_a_literal :
    after (start [0x11, 0x00, 0x01, 0x80, 0x00, 0x80, 0x00]) (fun t => t.faultCause) = some (some .invalidExtendWidth) :=
  by decide
/-- V61. -/
theorem test_sxi_widens :
    after (reg (reg (start [0x12, 0x80, 0x00, 0x80, 0x01, 0x00, 0x01]) .aaa 0x80) .bbb 0xFFFFFFFF)
      (fun t => t.regs.bbb) = some 0xFFFFFF80 := by decide
/-- V68. -/
theorem test_sxi_selector_before_destination :
    after (start [0x12, 0x00, 0x01, 0x00, 0x00, 0x00, 0x04]) (fun t => t.faultCause) = some (some .invalidExtendWidth) :=
  by decide
/-- V83. -/
theorem test_jmp_target_at_width_two :
    after (reg (start [0x13, 0x00, 0x00, 0x80, 0x00]) .aaa 0x1C000) (fun t => (t.pc, t.cycles)) = some (0xC000, 1) :=
  by decide
/-- V82. -/
theorem test_jmp_target_resolved_though_not_taken :
    after (start [0x13, 0x00, 0x01, 0x80, 0x09]) (fun t => (t.faultCause, t.pc)) = some (some .regOutOfBounds, 5) :=
  by decide
/-- V90. -/
theorem test_stks_keeps_the_upper_bytes :
    after (reg (start [0x14, 0x01, 0x00]) .stk 0xAABBCCDD0000FFFF) (fun t => t.regs.stk) = some 0xAABBCCDD00000100 :=
  by decide
/-- V91. -/
theorem test_push_wraps :
    after (reg (start [0x15, 0x00, 0x42]) .stk 0xFFFF) (fun t => (t.mem.read 0xFFFF, t.sp)) = some (0x42, 0) :=
  by decide
/-- V93. -/
theorem test_push_of_stk :
    after (reg (start [0x55, 0x80, 0x02]) .stk 0x100) (fun t => (bytes t 0x100 2, t.sp)) = some ([0x00, 0x01], 0x102) :=
  by decide
/-- V94. -/
theorem test_pop_wraps :
    after (put (start [0x16, 0x80, 0x00]) 0xFFFF [0x99]) (fun t => (t.regs.aaa, t.sp)) = some (0x99, 0xFFFF) :=
  by decide
/-- V96. -/
theorem test_pop_to_stk :
    after (put (reg (start [0x56, 0x80, 0x02]) .stk 0x102) 0x100 [0x00, 0x03]) (fun t => t.sp) = some 0x300 :=
  by decide
/-- V98. -/
theorem test_call :
    after (put (reg (reg State.reset .cur 6) .stk 0x102) 6 [0x17, 0x00, 0x10])
      (fun t => (bytes t 0x102 2, t.sp, t.pc)) = some ([0x09, 0x00], 0x104, 0x10) := by decide
/-- V101. -/
theorem test_ret_discards_locals :
    after (put (reg (start [0x18, 0x00, 0x04]) .stk 0x108) 0x102 [0x09, 0x00]) (fun t => (t.sp, t.pc)) = some (0x102, 9) :=
  by decide
/-- V102. -/
theorem test_ret_count_at_width :
    after (put (reg (reg (start [0x58, 0x80, 0x00]) .stk 0x10A) .aaa 6) 0x102 [0x78, 0x56])
      (fun t => (t.sp, t.pc)) = some (0x102, 0x5678) := by decide
/-- V118. -/
theorem test_halt :
    after (start [0x19]) (fun t => (t.running, t.panicMessage, t.faulted, t.pc)) = some (false, some "CPU halted", false, 1) :=
  by decide
/-- V110. -/
theorem test_getc_at_end_of_stream :
    after ((reg (start [0x1A, 0x80, 0x00]) .aaa 0x1234).closeInput)
      (fun t => (t.regs.aaa, t.inPos, t.running)) = some (0x12FF, 0, true) := by decide
/-- V112. -/
theorem test_getc_reads_one_byte :
    after (reg ((start [0xDA, 0x80, 0x00]).supplyInput [0x5A]) .aaa 0x1234) (fun t => (t.regs.aaa, t.inPos)) = some (0x125A, 1) :=
  by decide
/-- V113. -/
theorem test_putc_emits_the_low_byte : after (start [0x5B, 0x12, 0x34]) (fun t => t.output) = some [0x34] := by decide
/-- V116. -/
theorem test_putc_faults_before_it_emits :
    after (reg (start [0x5B, 0xC0, 0x01]) .bbb 0xFFFF) (fun t => (t.faultCause, t.output)) = some (some .memOutOfBounds, []) :=
  by decide
/-- V120. -/
theorem test_ucmp_unsigned : after (start [0x1C, 0x00, 0x80, 0x00, 0x01]) (fun t => (t.equal, t.less)) = some (false, false) := by decide
/-- V124. -/
theorem test_ucmp_at_width :
    after (reg (reg (start [0x1C, 0x80, 0x00, 0x80, 0x01]) .aaa 0x1FF) .bbb 0x2FF) (fun t => (t.equal, t.less)) = some (true, false) :=
  by decide
/-- V121. -/
theorem test_icmp_signed : after (start [0x1D, 0x00, 0x80, 0x00, 0x01]) (fun t => (t.equal, t.less)) = some (false, true) := by decide

/-! ## The step around the instruction -/

/-- V9. -/
theorem test_indirect_address_at_width :
    after (put (reg (start [0x00, 0xC0, 0x01, 0x80, 0x00]) .bbb 0x1234) 0x34 [0x5A]) (fun t => t.regs.aaa) = some 0x5A :=
  by decide
/-- V11. -/
theorem test_indirect_address_not_truncated :
    after (reg (start [0x80, 0xC0, 0x01, 0x80, 0x00]) .bbb 0x11234) (fun t => (t.faultCause, t.pc)) = some (some .memOutOfBounds, 5) :=
  by decide
/-- V70. -/
theorem test_straddles_the_top :
    after (put (reg State.reset .cur 0xFFFD) 0xFFFD [0x41, 0x00, 0x01])
      (fun t => (t.faultCause, t.pc)) = some (some .invalidWriteTarget, 4) := by decide
/-- V71. -/
theorem test_field_leaves_memory :
    after (put (reg State.reset .cur 0xFFFE) 0xFFFE [0x14])
      (fun t => (t.faultCause, t.pc, t.cycles)) = some (some .memOutOfBounds, 0xFFFF, 1) := by decide
/-- V73. -/
theorem test_decode_fault : after (start [0xFF]) (fun t => (t.faultCause, t.pc, t.cycles)) = some (some .decodeFault, 1, 1) := by decide
/-- V75, its second step. -/
theorem test_opcode_leaves_memory :
    after (reg { State.reset with memSize := 5 } .cur 5) (fun t => (t.faultCause, t.pc, t.cycles)) = some (some .memOutOfBounds, 5, 0) :=
  by decide
/-- S7, its first step, placed as the host places it. -/
theorem test_withFetchWord : after (State.reset.withFetchWord 40 0x0480050000) (fun t => (t.regs.acc, t.pc)) = some (5, 5) := by decide

/-- The step of a HALTED machine. -/
theorem test_halted : step { State.reset with running := false } = .fault .halted := rfl

/-- R42, R275: a constructed machine with `getc_ -> aaa` loaded waits, and the host's byte ends the wait. -/
theorem test_constructed_machine_waits_for_input :
    ∃ s t, construct 8 = some s ∧ s.load [0x1A, 0x80, 0x00] = some t ∧ step t = .fault .awaitingInput ∧
      after (t.supplyInput [0x41]) (fun u => (u.regs.aaa, u.inPos)) = some (0x41, 1) := ⟨_, _, rfl, rfl, rfl, by decide⟩

/-! ## Witnesses: for every statement with hypotheses, a concrete state and operands that meet them -/

/-- A small memory for the bounds: eight bytes. -/
def small : State := { State.reset with memSize := 8 }

/-- `mov.2 #5 -> aaa` at 0. -/
def movState : State := start [0x40, 0x00, 0x05, 0x80, 0x00]

/-- A machine whose host has not answered. -/
def waiting : State := start [0x1A, 0x80, 0x00]

theorem witness_ResetAndLoadMeetInvariant_smallest : ∃ s, construct 1 = some s := ⟨_, rfl⟩
theorem witness_ResetAndLoadMeetInvariant_largest : ∃ s, construct 65536 = some s := ⟨_, rfl⟩
theorem witness_ResetAndLoadMeetInvariant_load : small.Inv ∧ ∃ t, small.load [1, 2, 3, 4, 5, 6, 7, 8] = some t := ⟨by decide, _, rfl⟩
theorem witness_ResetAndLoadMeetInvariant_input : State.reset.Inv ∧ State.reset.inputEnded = false := by decide
theorem witness_StepKeepsInvariant : movState.Inv ∧ ∃ t, step movState = .next t := ⟨by decide, _, rfl⟩
theorem witness_HaltedIsTerminalAndRunningSteps_halted : ({ movState with running := false } : State).running = false := rfl
theorem witness_HaltedIsTerminalAndRunningSteps_running :
    movState.running = true ∧ movState.faultCause = none ∧ ∃ t, step movState = .next t := ⟨rfl, rfl, _, rfl⟩
theorem witness_RunningStepCompletesUnlessInputBlocked : waiting.running = true ∧ step waiting = .fault .awaitingInput := ⟨rfl, rfl⟩
theorem witness_FaultsArePrecise_opcode_fetch : ∃ t, step (reg small .cur 8) = .next t ∧ t.running = false := ⟨_, rfl, rfl⟩
theorem witness_FaultsArePrecise_handler : ∃ t, step (start [0x05, 0, 1, 0, 0, 0x80, 0]) = .next t ∧ t.running = false := ⟨_, rfl, rfl⟩
theorem witness_EveryFetchedOpcodeCountsOneCycle_inside :
    (reg small .cur 7).pc.toNat < small.memSize ∧ ∃ t, step (reg small .cur 7) = .next t := ⟨by decide, _, rfl⟩
theorem witness_EveryFetchedOpcodeCountsOneCycle_outside :
    small.memSize ≤ (reg small .cur 8).pc.toNat ∧ ∃ t, step (reg small .cur 8) = .next t := ⟨by decide, _, rfl⟩
theorem witness_StepNeverSetsBothFlags :
    ¬(movState.equal = true ∧ movState.less = true) ∧ ∃ t, step movState = .next t := ⟨by decide, _, rfl⟩
theorem witness_UnobservableStateHasNoInfluence :
    SameToProgram movState { movState with cycles := 9, output := [1] } ∧ ∃ t, step movState = .next t :=
  ⟨⟨rfl, rfl, rfl, rfl, rfl, rfl, rfl, rfl, rfl⟩, _, rfl⟩
theorem witness_OnlyGetcDependsOnInput : (Instr.putc_ .w1 (.imm 0)).mnemonic ≠ .getc_ := by decide
/-- `mov.2 #5 -> aaa` in a memory of exactly its five bytes: the last field ends where memory ends. -/
theorem witness_StepRunsTheDecodedInstruction :
    let s : State := { movState with memSize := 5 }
    s.CapacityOk ∧ s.running = true ∧ s.pc.toNat < s.memSize ∧
      decode (codeBytes s 7) = .ok (.mov .w2 (.imm 5) (.reg 0), [0, 0]) ∧
      ∀ j, j < (Instr.mov .w2 (.imm 5) (.reg 0)).mnemonic.fieldCount → FieldReadable s j := by
  unfold FieldReadable codeBytes codeAt; decide
theorem witness_OpcodeFetchOutOfBounds : (reg small .cur 8).running = true ∧ small.memSize ≤ (reg small .cur 8).pc.toNat := by decide
theorem witness_UnassignedOpcodeRaisesDecodeFault_lowest :
    (start [0x1E]).running = true ∧ (start [0x1E]).pc.toNat < (start [0x1E]).memSize ∧ 30 ≤ (codeAt (start [0x1E]) 0).toNat % 64 :=
  by unfold codeAt; decide
theorem witness_UnassignedOpcodeRaisesDecodeFault_highest :
    (start [0xFF]).running = true ∧ (start [0xFF]).pc.toNat < (start [0xFF]).memSize ∧ 30 ≤ (codeAt (start [0xFF]) 0).toNat % 64 :=
  by unfold codeAt; decide
theorem witness_FetchFieldIsBigEndian_outside : (reg small .cur 7).memSize < (reg small .cur 7).pc.toNat + 2 := by decide
theorem witness_FetchFieldIsBigEndian_inside : (reg small .cur 6).pc.toNat + 2 ≤ (reg small .cur 6).memSize := by decide
/-- V71, the first field. -/
theorem witness_FieldFetchFaultKeepsTheAdvances_first :
    let s := put (reg State.reset .cur 0xFFFE) 0xFFFE [0x14]
    s.running = true ∧ s.pc.toNat < s.memSize ∧ (codeAt s 0).toNat % 64 = Mnemonic.stks.index ∧ 0 < Mnemonic.stks.fieldCount ∧
      (∀ k, k < 0 → FieldReadable s k) ∧ ¬FieldReadable s 0 := by
  unfold FieldReadable codeAt; decide
/-- The last of three fields, in a memory one byte too small for it. -/
theorem witness_FieldFetchFaultKeepsTheAdvances_last :
    let s : State := { start [0x41] with memSize := 6 }
    s.running = true ∧ s.pc.toNat < s.memSize ∧ (codeAt s 0).toNat % 64 = Mnemonic.add.index ∧ 2 < Mnemonic.add.fieldCount ∧
      (∀ k, k < 2 → FieldReadable s k) ∧ ¬FieldReadable s 2 := by
  unfold FieldReadable codeAt; decide
theorem witness_EncodeOfDecode : decode [0x14, 0x01, 0x00, 0x19] = .ok (.stks .w1 (.imm 0x100), [0x19]) := by decide
theorem witness_SevenBytesDecodeUnlessUnassigned_last_assigned :
    6 ≤ ([0, 0, 0, 0, 0, 0] : List Byte).length ∧ (0x1D : Byte).toNat % 64 < 30 := by decide
theorem witness_SevenBytesDecodeUnlessUnassigned_first_unassigned :
    6 ≤ ([0, 0, 0, 0, 0, 0] : List Byte).length ∧ 30 ≤ (0x1E : Byte).toNat % 64 := by decide
theorem witness_IllFormedInstructionsFault : (Instr.mov .w2 (.imm 1) (.imm 2)).wellFormed = false := by decide
theorem witness_WellFormedInstructionsRaiseNoEncodingFault :
    (Instr.udiv .w1 (.imm 1) (.imm 0) (.reg 5)).wellFormed = true ∧ State.reset.faultCause = none ∧
      ∃ t, exec (.udiv .w1 (.imm 1) (.imm 0) (.reg 5)) State.reset = .next t ∧ t.faultCause = some .divideByZero :=
  ⟨by decide, rfl, _, rfl, rfl⟩
theorem witness_MemReadIsLittleEndian_outside : small.memSize < 7 + Width.w2.bytes := by decide
theorem witness_MemReadIsLittleEndian_inside : 6 + Width.w2.bytes ≤ small.memSize := by decide
theorem witness_MemWriteIsLittleEndian_outside : small.memSize < 1 + Width.w8.bytes := by decide
theorem witness_MemWriteIsLittleEndian_inside : 0 + Width.w8.bytes ≤ small.memSize := by decide
theorem witness_CanonicalMemoriesThatReadAlikeAreEqual :
    let m := (Memory.write [] 7 1).write 3 2
    let m' := (((Memory.write [] 3 2).write 5 9).write 7 1).write 5 0
    m.wf ∧ m'.wf ∧ ∀ a, m.read a = m'.read a := by
  refine ⟨by decide, by decide, fun a => ?_⟩
  have : ((Memory.write [] 7 1).write 3 2) = ((((Memory.write [] 3 2).write 5 9).write 7 1).write 5 0) := by decide
  rw [this]
theorem witness_ResolveReadByMode_register_out_of_bounds :
    (0x8006 : Word16).getLsbD 15 = true ∧ 5 < (0x8006 : Word16).toNat % 2 ^ 14 := by decide
theorem witness_ResolveReadByMode_register :
    (0x8005 : Word16).getLsbD 15 = true ∧ (0x8005 : Word16).toNat % 2 ^ 14 = regNumber .cur ∧ (0x8005 : Word16).getLsbD 14 = false :=
  by decide
theorem witness_ResolveReadByMode_indirect :
    (0xC000 : Word16).getLsbD 15 = true ∧ (0xC000 : Word16).toNat % 2 ^ 14 = regNumber .aaa ∧ (0xC000 : Word16).getLsbD 14 = true :=
  by decide
theorem witness_ResolveReadByMode_memory : (0x7FFF : Word16).getLsbD 15 = false ∧ (0x7FFF : Word16).getLsbD 14 = true := by decide
theorem witness_ResolveReadByMode_immediate : (0x3FFF : Word16).getLsbD 15 = false ∧ (0x3FFF : Word16).getLsbD 14 = false := by decide
theorem witness_ResolveLocByMode_register_out_of_bounds :
    (0x8006 : Word16).getLsbD 15 = true ∧ 5 < (0x8006 : Word16).toNat % 2 ^ 14 := by decide
theorem witness_ResolveLocByMode_register :
    (0x8005 : Word16).getLsbD 15 = true ∧ (0x8005 : Word16).toNat % 2 ^ 14 = regNumber .cur ∧ (0x8005 : Word16).getLsbD 14 = false :=
  by decide
theorem witness_ResolveLocByMode_indirect :
    (0xC000 : Word16).getLsbD 15 = true ∧ (0xC000 : Word16).toNat % 2 ^ 14 = regNumber .aaa ∧ (0xC000 : Word16).getLsbD 14 = true :=
  by decide
theorem witness_ResolveLocByMode_memory : (0x7FFF : Word16).getLsbD 15 = false ∧ (0x7FFF : Word16).getLsbD 14 = true := by decide
theorem witness_ResolveLocByMode_immediate : (0x3FFF : Word16).getLsbD 15 = false ∧ (0x3FFF : Word16).getLsbD 14 = false := by decide
theorem witness_ResolverRoundTrip : ∃ t, resolveWrite State.reset (.ind 1) .w4 0xDEADBEEF = .ok t := ⟨_, rfl⟩

/-- The clauses of `SourceToDestRule` (MovCopiesWidthBytes, UnaryOperations): a source that faults; then a destination; then neither. -/
theorem witness_SourceToDestRule_source : resolveRead small (.mem 7) .w2 = .error .memOutOfBounds := by decide
theorem witness_SourceToDestRule_destination :
    resolveRead small (.mem 6) .w2 = .ok 0 ∧ resolveLoc small (.mem 7) .w2 = .error .memOutOfBounds := by decide
theorem witness_SourceToDestRule_both :
    resolveRead small (.mem 6) .w2 = .ok 0 ∧ resolveLoc small (.mem 6) .w2 = .ok (.mem 6) := by decide

/-- The clauses of `BinaryRule` (AddSubMulWrap, ShiftsByCountModuloWidth, AndOrXorBitByBit). -/
theorem witness_BinaryRule_first : resolveRead small (.reg 6) .w1 = .error .regOutOfBounds := by decide
theorem witness_BinaryRule_second :
    resolveRead small (.reg 5) .w1 = .ok 0 ∧ resolveRead small (.reg 6) .w1 = .error .regOutOfBounds := by decide
theorem witness_BinaryRule_destination :
    resolveRead small (.reg 5) .w1 = .ok 0 ∧ resolveRead small (.imm 8) .w1 = .ok 8 ∧
      resolveLoc small (.imm 0) .w1 = .error .invalidWriteTarget := by decide
theorem witness_BinaryRule_all :
    resolveRead small (.reg 5) .w1 = .ok 0 ∧ resolveRead small (.imm 8) .w1 = .ok 8 ∧
      resolveLoc small (.mem 7) .w1 = .ok (.mem 7) := by decide

/-- The clauses of `DivisionRule` (UdivIsFloorAndFaultsOnZero, IdivRoundsTowardZeroAndFaultsOnZero); the two about the sources are those
of `BinaryRule`. -/
theorem witness_DivisionRule_zero :
    resolveRead small (.imm 1) .w1 = .ok 1 ∧ resolveRead small (.imm 0x100) .w1 = .ok 0 ∧ (0 : BitVec Width.w1.bits).toNat = 0 := by
  decide
theorem witness_DivisionRule_destination :
    resolveRead small (.imm 1) .w1 = .ok 1 ∧ resolveRead small (.imm 1) .w1 = .ok 1 ∧ (1 : BitVec Width.w1.bits).toNat ≠ 0 ∧
      resolveLoc small (.imm 0) .w1 = .error .invalidWriteTarget := by decide
theorem witness_DivisionRule_all :
    resolveRead small (.imm 0x80) .w1 = .ok 0x80 ∧ resolveRead small (.imm 0xFF) .w1 = .ok 0xFF ∧
      (0xFF : BitVec Width.w1.bits).toNat ≠ 0 ∧ resolveLoc small (.reg 0) .w1 = .ok (.reg .aaa) := by decide
/-- The quotient that does not fit. -/
theorem witness_IdivRoundsTowardZeroAndFaultsOnZero_overflow :
    (0x80 : BitVec Width.w1.bits).toInt = -2 ^ (Width.w1.bits - 1) ∧ (0xFF : BitVec Width.w1.bits).toInt = -1 := by decide

/-- The clauses of `ExtendRule` (ExtendToTargetWidth), and its widening and narrowing. -/
theorem witness_ExtendRule_selector : 3 < (4 : Word16).toNat := by decide
theorem witness_ExtendRule_source : Width.w8.bytes = 2 ^ (3 : Word16).toNat ∧ resolveRead small (.mem 8) .w1 = .error .memOutOfBounds := by
  decide
theorem witness_ExtendRule_destination :
    Width.w8.bytes = 2 ^ (3 : Word16).toNat ∧ resolveRead small (.mem 7) .w1 = .ok 0 ∧
      resolveLoc small (.mem 1) .w8 = .error .memOutOfBounds := by decide
theorem witness_ExtendRule_all :
    Width.w1.bytes = 2 ^ (0 : Word16).toNat ∧ resolveRead small (.mem 7) .w1 = .ok 0 ∧
      resolveLoc small (.mem 7) .w1 = .ok (.mem 7) := by decide
theorem witness_ExtendToTargetWidth_widths : Width.w1.bytes < Width.w2.bytes ∧ Width.w2.bytes ≤ Width.w2.bytes := by decide

/-- The clauses of `CompareRule` (CompareWritesBothFlags). -/
theorem witness_CompareRule_first : resolveRead small (.ind 6) .w2 = .error .regOutOfBounds := by decide
theorem witness_CompareRule_second :
    resolveRead small (.imm 1) .w2 = .ok 1 ∧ resolveRead small (.mem 7) .w2 = .error .memOutOfBounds := by decide
theorem witness_CompareRule_both : resolveRead small (.imm 1) .w2 = .ok 1 ∧ resolveRead small (.mem 6) .w2 = .ok 0 := by decide

theorem witness_JumpWritesPcIfConditionHolds_code : 6 < (7 : Word16).toNat := by decide
theorem witness_JumpWritesPcIfConditionHolds_target :
    (6 : Word16).toNat ≤ 6 ∧ resolveRead small (.mem 7) .w2 = .error .memOutOfBounds := by decide
theorem witness_JumpWritesPcIfConditionHolds_taken :
    (6 : Word16).toNat ≤ 6 ∧ resolveRead small (.mem 6) .w2 = .ok (0 : Word16) ∧
      ConditionHolds (6 : Word16).toNat small.equal small.less := by unfold ConditionHolds; decide
theorem witness_JumpWritesPcIfConditionHolds_not_taken :
    (1 : Word16).toNat ≤ 6 ∧ resolveRead small (.mem 6) .w2 = .ok (0 : Word16) ∧
      ¬ConditionHolds (1 : Word16).toNat small.equal small.less := by unfold ConditionHolds; decide
theorem witness_ConditionTable :
    resolveRead State.reset (.imm 0x3FFF) .w2 = .ok (0x3FFF : Word16) ∧ (0 : Word16).toNat = 0 ∧ (1 : Word16).toNat = 1 ∧
      (2 : Word16).toNat = 2 ∧ (3 : Word16).toNat = 3 ∧ (4 : Word16).toNat = 4 ∧ (5 : Word16).toNat = 5 ∧ (6 : Word16).toNat = 6 ∧
      7 ≤ (7 : Word16).toNat := by decide
theorem witness_StksSetsStackPointer_fault : resolveRead small (.mem 7) .w2 = .error .memOutOfBounds := by decide
theorem witness_StksSetsStackPointer_value : resolveRead small (.mem 6) .w2 = .ok (0 : Word16) := by decide
theorem witness_PushStoresThenRaisesSp_operand : resolveRead small (.reg 6) .w2 = .error .regOutOfBounds := by decide
theorem witness_PushStoresThenRaisesSp_slot :
    resolveRead small (.imm 1) .w2 = .ok 1 ∧ small.memSize < (reg small .stk 7).sp.toNat + Width.w2.bytes := by decide
theorem witness_PushStoresThenRaisesSp_value :
    resolveRead small (.imm 1) .w2 = .ok 1 ∧ (reg small .stk 6).sp.toNat + Width.w2.bytes ≤ small.memSize := by decide
theorem witness_PopLowersSpThenStores_slot :
    small.memSize < ((reg small .stk 9).sp.toNat + 2 ^ 16 - Width.w2.bytes) % 2 ^ 16 + Width.w2.bytes := by decide
theorem witness_PopLowersSpThenStores_wrap :
    small.memSize < ((reg small .stk 0).sp.toNat + 2 ^ 16 - Width.w2.bytes) % 2 ^ 16 + Width.w2.bytes := by decide
theorem witness_PopLowersSpThenStores_destination :
    ((reg small .stk 8).sp.toNat + 2 ^ 16 - Width.w2.bytes) % 2 ^ 16 + Width.w2.bytes ≤ small.memSize ∧
      resolveLoc (destinationState (.pop .w2 (.imm 0)) (reg small .stk 8)) (.imm 0) .w2 = .error .invalidWriteTarget := by decide
theorem witness_PopLowersSpThenStores_value :
    ((reg small .stk 8).sp.toNat + 2 ^ 16 - Width.w2.bytes) % 2 ^ 16 + Width.w2.bytes ≤ small.memSize ∧
      resolveLoc (destinationState (.pop .w2 (.ind 2)) (reg small .stk 8)) (.ind 2) .w2 = .ok (.mem 6) := by decide
theorem witness_CallPushesReturnAddress_target : resolveRead small (.reg 6) .w2 = .error .regOutOfBounds := by decide
theorem witness_CallPushesReturnAddress_slot :
    resolveRead small (.imm 1) .w2 = .ok 1 ∧ small.memSize < (reg small .stk 7).sp.toNat + 2 := by decide
theorem witness_CallPushesReturnAddress_value :
    resolveRead small (.imm 1) .w2 = .ok (1 : Word16) ∧ (reg small .stk 6).sp.toNat + 2 ≤ small.memSize := by decide
theorem witness_RetDiscardsThenReturns_operand : resolveRead small (.reg 6) .w1 = .error .regOutOfBounds := by decide
theorem witness_RetDiscardsThenReturns_slot :
    resolveRead (reg small .stk 10) (.imm 1) .w1 = .ok 1 ∧
      small.memSize < ((reg small .stk 10).sp.toNat + 2 ^ 17 - (1 : BitVec Width.w1.bits).toNat % 2 ^ 16 - 2) % 2 ^ 16 + 2 :=
  by decide
theorem witness_RetDiscardsThenReturns_value :
    resolveRead (reg small .stk 9) (.imm 1) .w1 = .ok 1 ∧
      ((reg small .stk 9).sp.toNat + 2 ^ 17 - (1 : BitVec Width.w1.bits).toNat % 2 ^ 16 - 2) % 2 ^ 16 + 2 ≤ small.memSize :=
  by decide
theorem witness_GetcReadsOneByte_destination : resolveLoc small (.imm 0) .w1 = .error .invalidWriteTarget := by decide
theorem witness_GetcReadsOneByte_byte :
    resolveLoc small (.mem 7) .w1 = .ok (.mem 7) ∧
      ({ small with input := [5, 6], inPos := 1 } : State).input[1]? = some 6 := by decide
theorem witness_GetcReadsOneByte_end :
    resolveLoc small.closeInput (.mem 7) .w1 = .ok (.mem 7) ∧ small.closeInput.input.length ≤ small.closeInput.inPos ∧
      small.closeInput.inputEnded = true := by decide
theorem witness_GetcReadsOneByte_waits : resolveLoc waiting (.reg 0) .w1 = .ok (.reg .aaa) ∧ waiting.InputBlocked := by decide
theorem witness_GetcReadsOneByte_wait_ends :
    resolveLoc waiting (.reg 0) .w1 = .ok (.reg .aaa) ∧ waiting.InputOk ∧ waiting.InputBlocked := by decide
theorem witness_PutcEmitsLowByte_fault : resolveRead small (.mem 7) .w2 = .error .memOutOfBounds := by decide
theorem witness_PutcEmitsLowByte_value : resolveRead small (.imm 0x1234) .w2 = .ok 0x1234 := by decide
theorem witness_HandlersRaiseOnlyTheirOwnCauses :
    State.reset.faultCause = none ∧
      ∃ t, exec (.jmp .w1 7 (.imm 0)) State.reset = .next t ∧ t.faultCause = some .invalidJumpCondition := ⟨rfl, _, rfl, rfl⟩
theorem witness_OnlyComparesWriteFlags :
    (Instr.sub .w1 (.imm 0) (.imm 0) (.reg 0)).mnemonic ∉ [.ucmp, .icmp] ∧
      ∃ t, exec (.sub .w1 (.imm 0) (.imm 0) (.reg 0)) State.reset = .next t := ⟨by decide, _, rfl⟩
theorem witness_RegistersChangeOnlyWhereNamed_named :
    ∃ t, exec (.mov .w8 (.imm 1) (.reg 5)) State.reset = .next t ∧
      (t.regs.get .cur).getLsbD 0 ≠ (State.reset.regs.get .cur).getLsbD 0 := ⟨_, rfl, by decide⟩
theorem witness_RegistersChangeOnlyWhereNamed_sp :
    ∃ t, exec (.push .w1 (.imm 1)) State.reset = .next t ∧
      (t.regs.get .stk).getLsbD 0 ≠ (State.reset.regs.get .stk).getLsbD 0 := ⟨_, rfl, by decide⟩
theorem witness_RegistersChangeOnlyWhereNamed_pc :
    ∃ t, exec (.jmp .w1 0 (.imm 1)) State.reset = .next t ∧
      (t.regs.get .cur).getLsbD 0 ≠ (State.reset.regs.get .cur).getLsbD 0 := ⟨_, rfl, by decide⟩
theorem witness_MemoryChangesOnlyInStoreRange_destination :
    ∃ t, exec (.mov .w1 (.imm 1) (.mem 7)) small = .next t ∧ t.mem.read 7 ≠ small.mem.read 7 := ⟨_, rfl, by decide⟩
theorem witness_MemoryChangesOnlyInStoreRange_stack :
    ∃ t, exec (.call .w1 (.imm 1)) (reg small .cur 5) = .next t ∧ t.mem.read 0 ≠ small.mem.read 0 := ⟨_, rfl, by decide⟩
theorem witness_StreamsMoveOnlyByGetcAndPutc :
    ∃ t, exec (.getc_ .w1 (.reg 0)) { small with input := [5] } = .next t ∧ t.inPos = 1 := ⟨_, rfl, by decide⟩
theorem witness_PushThenPopGivesTheValueBack :
    resolveRead (reg State.reset .stk 0xFFFF) (.imm 7) .w1 = .ok 7 ∧
      (reg State.reset .stk 0xFFFF).sp.toNat + Width.w1.bytes ≤ State.reset.memSize ∧ (5 : BitVec 14).toNat = regNumber .cur ∧
      Reg.cur ≠ .stk := by decide
theorem witness_CallThenReturn :
    resolveRead (reg State.reset .stk 0xFFFE) (.imm 7) .w2 = .ok (7 : Word16) ∧
      (reg State.reset .stk 0xFFFE).sp.toNat + 2 ≤ State.reset.memSize := by decide
/-- What ran in between may be nothing. -/
theorem witness_CallThenReturn_between :
    ∃ t, exec (.call .w1 (.imm 7)) (reg State.reset .stk 0xFFFE) = .next t ∧ t.sp = 0 ∧ t.memSize = 65536 := ⟨_, rfl, by decide, by decide⟩
theorem witness_LoadPlacesTheImageVerbatim_too_long : small.memSize < ([0, 0, 0, 0, 0, 0, 0, 0, 0] : List Byte).length := by decide
theorem witness_LoadPlacesTheImageVerbatim_fits :
    ([1, 2, 3, 4, 5, 6, 7, 8] : List Byte).length ≤ small.memSize ∧ ([1, 2] : List Byte)[1]? = some 2 := by decide

end Sys2Proof.Tests
end

/-! What a step can change of the state, and what every step keeps.

`ExecEffect` (Laws/Exec.lean) lists all a handler can do. The lemmas below read off it, field by field, what changes. An obligation
about `exec` is one of these lemmas; one about `step` carries them over the fetch stage with `step_next` or `step_keeps`. -/

namespace Sys2Proof.Machine

/-! ## The shared operations -/

/-- Taking an input changes nothing (at end-of-stream), or consumes a byte that is there. -/
theorem nextInput_some {s u : State} {b : Byte} (h : s.nextInput = some (b, u)) :
    u = s ∨ (u = s.consume ∧ s.inPos < s.input.length) := by
  rcases nextInput_cases s with ⟨c, hc, h'⟩ | ⟨-, -, h'⟩ | ⟨-, h'⟩
  · rw [h'] at h; cases h
    exact .inr ⟨rfl, (List.getElem?_eq_some_iff.1 hc).1⟩
  · rw [h'] at h; cases h; exact .inl rfl
  · rw [h'] at h; cases h

theorem nextInput_same {s u : State} {b : Byte} (h : s.nextInput = some (b, u)) :
    u.regs = s.regs ∧ u.mem = s.mem ∧ u.memSize = s.memSize := by
  rcases nextInput_some h with rfl | ⟨rfl, -⟩ <;> exact ⟨rfl, rfl, rfl⟩

/-- A register write changes a bit only in the low bytes of its register. -/
theorem regWrite_getLsbD_ne {s : State} {q r : Reg} {w : Width} {v : BitVec w.bits} {k : Nat}
    (h : ((s.regWrite q w v).regs.get r).getLsbD k ≠ (s.regs.get r).getLsbD k) : r = q ∧ k < w.bits := by
  by_contra hk
  exact h (by rw [State.getLsbD_regWrite, if_neg hk])

theorem setSp_getLsbD_ne {s : State} {a : Word16} {r : Reg} {k : Nat}
    (h : ((s.setSp a).regs.get r).getLsbD k ≠ (s.regs.get r).getLsbD k) : r = .stk ∧ k < 16 :=
  regWrite_getLsbD_ne (w := .w2) (v := a) h

theorem setPc_getLsbD_ne {s : State} {a : Word16} {r : Reg} {k : Nat}
    (h : ((s.setPc a).regs.get r).getLsbD k ≠ (s.regs.get r).getLsbD k) : r = .cur ∧ k < 16 :=
  regWrite_getLsbD_ne (w := .w2) (v := a) h

/-- A store changes a register's bit only in the low bytes of the register it is to. -/
theorem store_getLsbD_ne {s : State} {l : Loc} {w : Width} {v : BitVec w.bits} {r : Reg} {k : Nat}
    (h : ((s.store l w v).regs.get r).getLsbD k ≠ (s.regs.get r).getLsbD k) : l = .reg r ∧ k < w.bits := by
  cases l with
  | reg q => obtain ⟨rfl, hk⟩ := regWrite_getLsbD_ne h; exact ⟨rfl, hk⟩
  | mem a => exact absurd rfl h

/-- A store of bytes changes memory only in its range. -/
theorem putBytes_read_ne {s : State} {a b : Nat} {w : Width} {v : BitVec w.bits}
    (h : (s.putBytes a w v).mem.read b ≠ s.mem.read b) : a ≤ b ∧ b < a + w.bytes := by
  by_contra hb
  exact h (by rw [State.putBytes_mem, Memory.read_writeLE, if_neg hb])

/-- A store changes memory only in the bytes of the memory location it is to. -/
theorem store_read_ne {s : State} {l : Loc} {w : Width} {v : BitVec w.bits} {b : Nat}
    (h : (s.store l w v).mem.read b ≠ s.mem.read b) : ∃ a, l = .mem a ∧ a ≤ b ∧ b < a + w.bytes := by
  cases l with
  | reg q => exact absurd rfl h
  | mem a => exact ⟨a, rfl, putBytes_read_ne h⟩

/-- Bytes stored inside memory keep memory's part of the invariant. -/
theorem putBytes_memoryOk {s : State} (h : s.MemoryOk) {a : Nat} {w : Width} (v : BitVec w.bits)
    (hb : a + w.bytes ≤ s.memSize) : (s.putBytes a w v).MemoryOk :=
  ⟨Memory.wf_writeLE h.1 a v w.bytes, Memory.below_writeLE h.2 v hb⟩

/-! ## Which bits and bytes an instruction may change -/

/-- The register bits an instruction may change: those of its register-direct destination, of `sp` or of `pc` (R23, R26, R27). -/
def MayChangeRegBit (i : Instr) (r : Reg) (k : Nat) : Prop :=
  NamesRegBit i r k ∨ (r = .stk ∧ k < 16 ∧ movesSp i = true) ∨ (r = .cur ∧ k < 16 ∧ movesPc i = true)

theorem MayChangeRegBit.ofDestination {i : Instr} {s : State} {o : Operand} {w : Width} {l : Loc} {r : Reg} {k : Nat}
    (hd : destination i = some (o, w)) (hl : resolveLoc s o w = .ok l) (hr : l = .reg r ∧ k < w.bits) : MayChangeRegBit i r k := by
  obtain ⟨rfl, hk⟩ := hr
  obtain ⟨p, rfl, hp⟩ := resolveLoc_reg.1 hl
  exact .inl ⟨p, w, hd, hp, hk⟩

theorem MayChangeRegBit.ofSp {i : Instr} {r : Reg} {k : Nat} (hi : movesSp i = true) (hr : r = .stk ∧ k < 16) :
    MayChangeRegBit i r k :=
  .inr (.inl ⟨hr.1, hr.2, hi⟩)

theorem MayChangeRegBit.ofPc {i : Instr} {r : Reg} {k : Nat} (hi : movesPc i = true) (hr : r = .cur ∧ k < 16) :
    MayChangeRegBit i r k :=
  .inr (.inr ⟨hr.1, hr.2, hi⟩)

/-- Address `b` lies in the store range of an instruction, and that range inside memory (R35, R52). -/
def InStoreRange (i : Instr) (s : State) (b : Nat) : Prop :=
  ∃ a n, storeRange i s = some (a, n) ∧ a ≤ b ∧ b < a + n ∧ a + n ≤ s.memSize

/-- The store range of an instruction whose destination resolves to a place in memory (`push` and `call` have no destination). -/
theorem storeRange_of_destination {i : Instr} {s : State} {o : Operand} {w : Width} {a : Nat} (hd : destination i = some (o, w))
    (hl : resolveLoc (destinationState i s) o w = .ok (.mem a)) : storeRange i s = some (a, w.bytes) := by
  unfold storeRange
  split
  · cases hd
  · cases hd
  · simp only [hd, hl]

theorem InStoreRange.ofDestination {i : Instr} {s : State} {o : Operand} {w : Width} {l : Loc} {b : Nat}
    (hd : destination i = some (o, w)) (hn : (destinationState i s).memSize = s.memSize)
    (hl : resolveLoc (destinationState i s) o w = .ok l) (hr : ∃ a, l = .mem a ∧ a ≤ b ∧ b < a + w.bytes) : InStoreRange i s b := by
  obtain ⟨a, rfl, hab, hba⟩ := hr
  exact ⟨a, w.bytes, storeRange_of_destination hd hl, hab, hba, hn ▸ resolveLoc_inBounds hl⟩

/-! ## What a handler changes besides registers and memory -/

/-- All a handler can do to the fields other than registers and memory. -/
inductive FrameEffect (i : Instr) (s : State) : State → Prop where
  | raised (c : Cause) : FrameEffect i s (s.raise c)
  | kept (x : Regs) (m : Memory) : FrameEffect i s { s with regs := x, mem := m }
  | consumed (x : Regs) (m : Memory) (hi : i.mnemonic = .getc_) (hin : s.inPos < s.input.length) :
      FrameEffect i s { s.consume with regs := x, mem := m }
  | emitted (b : Byte) (hi : i.mnemonic = .putc_) : FrameEffect i s (s.emit b)
  | compared (e l : Bool) (hi : i.mnemonic ∈ [.ucmp, .icmp]) (hel : e = true → l = false) : FrameEffect i s (s.setFlags e l)

theorem FrameEffect.store {i : Instr} {s : State} (l : Loc) (w : Width) (v : BitVec w.bits) : FrameEffect i s (s.store l w v) := by
  cases l <;> exact .kept _ _

theorem FrameEffect.consume_store {i : Instr} {s : State} (hi : i.mnemonic = .getc_) (hin : s.inPos < s.input.length) (l : Loc)
    (w : Width) (v : BitVec w.bits) : FrameEffect i s (s.consume.store l w v) := by
  cases l <;> exact .consumed _ _ hi hin

namespace ExecEffect

variable {i : Instr} {s t : State}

theorem frame (h : ExecEffect i s t) : FrameEffect i s t := by
  cases h with
  | fault c => exact .raised c
  | @stored i s o w l v => exact .store l w v
  | @popped w dst s l v => cases l <;> exact .kept _ _
  | @input w dst s l b u hl hu =>
    rcases nextInput_some hu with rfl | ⟨rfl, hin⟩
    · exact .store l .w1 b
    · exact .consume_store rfl hin l .w1 b
  | emitted b => exact .emitted b rfl
  | comparedUnsigned e l hel => exact .compared e l (by simp [Instr.mnemonic]) hel
  | comparedSigned e l hel => exact .compared e l (by simp [Instr.mnemonic]) hel
  | _ => exact .kept _ _

/-- The run/halt status changes only by a fault, `halt` among them (R121, R242). -/
theorem status (h : ExecEffect i s t) :
    (∃ c, t = s.raise c) ∨
      (t.running = s.running ∧ t.faultCause = s.faultCause ∧ t.panicMessage = s.panicMessage) := by
  cases h.frame with
  | raised c => exact .inl ⟨c, rfl⟩
  | _ => exact .inr ⟨rfl, rfl, rfl⟩

/-- No handler counts a cycle: the fetch does (R30). -/
theorem cycles_eq (h : ExecEffect i s t) : t.cycles = s.cycles := by
  cases h.frame <;> rfl

/-- The flags change only by a compare, which does not set both (R28). -/
theorem flags (h : ExecEffect i s t) :
    SameFlags s t ∨ (i.mnemonic ∈ [.ucmp, .icmp] ∧ (t.equal = true → t.less = false)) := by
  cases h.frame with
  | compared e l hi hel => exact .inr ⟨hi, hel⟩
  | _ => exact .inl ⟨rfl, rfl⟩

/-- No handler writes the capacity or what the host supplied (R37). -/
theorem host_eq (h : ExecEffect i s t) : t.input = s.input ∧ t.inputEnded = s.inputEnded ∧ t.memSize = s.memSize := by
  cases h.frame <;> exact ⟨rfl, rfl, rfl⟩

/-- Input is consumed by `getc_` alone, one byte that is there (R42). -/
theorem inPos (h : ExecEffect i s t) :
    t.inPos = s.inPos ∨ (i.mnemonic = .getc_ ∧ t.inPos = s.inPos + 1 ∧ s.inPos < s.input.length) := by
  cases h.frame with
  | consumed x m hi hin => exact .inr ⟨hi, rfl, hin⟩
  | _ => exact .inl rfl

/-- Output is emitted by `putc_` alone, one byte (R43). -/
theorem output (h : ExecEffect i s t) :
    t.output = s.output ∨ (i.mnemonic = .putc_ ∧ ∃ b, t.output = s.output ++ [b]) := by
  cases h.frame with
  | emitted b hi => exact .inr ⟨hi, b, rfl⟩
  | _ => exact .inl rfl

/-! ## What a handler changes of registers and memory -/

/-- A register's bit changes only in the register-direct destination, in `sp` by the stack instructions, or in `pc` by the jumps. -/
theorem regs_bit (h : ExecEffect i s t) {r : Reg} {k : Nat} (hne : (t.regs.get r).getLsbD k ≠ (s.regs.get r).getLsbD k) :
    MayChangeRegBit i r k := by
  cases h with
  | stored v hd hs hl => exact .ofDestination hd hl (store_getLsbD_ne hne)
  | @popped w dst s l v hl =>
    rcases hne.ne_or_ne (((s.setSp (s.sp - BitVec.ofNat 16 w.bytes)).regs.get r).getLsbD k) with hst | hsp
    · exact .ofDestination rfl hl (store_getLsbD_ne hst)
    · exact .ofSp rfl (setSp_getLsbD_ne hsp.symm)
  | @input w dst s l b u hl hu =>
    rw [← (nextInput_same hu).1] at hne
    exact .ofDestination rfl hl (store_getLsbD_ne hne)
  | jumped v => exact .ofPc rfl (setPc_getLsbD_ne hne)
  | stackSet v => exact .ofSp rfl (setSp_getLsbD_ne hne)
  | pushed v hb => exact .ofSp rfl (setSp_getLsbD_ne (s := s.putBytes _ _ v) hne)
  | called v hb =>
    rcases hne.ne_or_ne (((s.setSp (s.sp + 2#16)).regs.get r).getLsbD k) with hpc | hsp
    · exact .ofPc rfl (setPc_getLsbD_ne (s := s.setSp _) (a := v) hpc)
    · exact .ofSp rfl (setSp_getLsbD_ne hsp.symm)
  | returned a ra =>
    rcases hne.ne_or_ne (((s.setSp a).regs.get r).getLsbD k) with hpc | hsp
    · exact .ofPc rfl (setPc_getLsbD_ne hpc)
    · exact .ofSp rfl (setSp_getLsbD_ne hsp.symm)
  | _ => exact absurd rfl hne

/-- Memory changes only inside the store range, which lies inside memory. -/
theorem mem_byte (h : ExecEffect i s t) {b : Nat} (hne : t.mem.read b ≠ s.mem.read b) : InStoreRange i s b := by
  cases h with
  | stored v hd hs hl => exact .ofDestination hd (by rw [hs]) (by rw [hs, hl]) (store_read_ne hne)
  | popped v hl => exact .ofDestination rfl rfl hl (store_read_ne hne)
  | @input w dst s l b u hl hu =>
    rw [← (nextInput_same hu).2.1] at hne
    exact .ofDestination rfl rfl hl (store_read_ne hne)
  | pushed v hb =>
    obtain ⟨hab, hba⟩ := putBytes_read_ne hne
    exact ⟨_, _, rfl, hab, hba, hb⟩
  | called v hb =>
    obtain ⟨hab, hba⟩ := putBytes_read_ne hne
    exact ⟨_, _, rfl, hab, hba, hb⟩
  | _ => exact absurd rfl hne

/-- Every handler keeps memory canonical and inside the capacity, since it stores inside memory only. -/
theorem memoryOk (h : ExecEffect i s t) (hm : s.MemoryOk) : t.MemoryOk := by
  cases h with
  | stored v hd hs hl => exact store_memoryOk hm rfl hl v
  | popped v hl => exact store_memoryOk (s := s.setSp _) (s0 := s.setSp _) hm rfl hl v
  | @input w dst s l b u hl hu =>
    obtain ⟨-, hmem, hsize⟩ := nextInput_same hu
    exact store_memoryOk (w := .w1) (by rwa [State.MemoryOk, hmem, hsize]) hsize.symm hl b
  | pushed v hb => exact putBytes_memoryOk hm v hb
  | called v hb => exact putBytes_memoryOk (w := .w2) hm s.pc hb
  | _ => exact hm

/-- Every handler keeps the invariant. -/
theorem inv (h : ExecEffect i s t) (hs : s.Inv) : t.Inv := by
  obtain ⟨hcap, hmem, hstatus, hin⟩ := hs
  obtain ⟨hinput, -, hsize⟩ := h.host_eq
  refine ⟨by rwa [State.CapacityOk, hsize], h.memoryOk hmem, ?_, ?_⟩
  · rcases h.status with ⟨c, rfl⟩ | ⟨hrun, hcause, hmsg⟩
    · simp [State.StatusOk]
    · rwa [State.StatusOk, hrun, hcause, hmsg]
  · show t.inPos ≤ t.input.length
    rw [hinput]
    rcases h.inPos with hpos | ⟨-, hpos, hlt⟩
    · rw [hpos]; exact hin
    · rw [hpos]; exact hlt

end ExecEffect

/-! ## What every step keeps -/

/-- What the fetch advance and every handler keep, every step keeps: its faults at fetch are what a handler's fault does. -/
theorem step_keeps {P : State → Prop} (hfetch : ∀ s n, P s → P (s.afterFetch n))
    (hexec : ∀ i s t, ExecEffect i s t → P s → P t) {s t : State} (h : step s = .next t) (hs : P s) : P t := by
  rcases (step_next h).2 with ⟨-, rfl⟩ | ⟨-, n, c, -, rfl⟩ | ⟨-, i, hi⟩
  · exact hexec (.halt .w1) _ _ (.fault _) hs
  · exact hexec (.halt .w1) _ _ (.fault c) (hfetch s n hs)
  · exact hexec i _ _ (exec_effect hi) (hfetch s i.length hs)

/-- Settles O3: the fetch advance touches nothing the invariant speaks of, and every handler keeps it. -/
theorem stepKeepsInvariant : Obligations.StepKeepsInvariant :=
  fun _ _ hs h => step_keeps (fun _ _ hs => hs) (fun _ _ _ he => he.inv) h hs

/-- Settles O7: the fetch advance counts the cycle; neither a fault nor a handler counts one. -/
theorem everyFetchedOpcodeCountsOneCycle : Obligations.EveryFetchedOpcodeCountsOneCycle := by
  intro s t h
  rcases (step_next h).2 with ⟨hpc, rfl⟩ | ⟨hpc, n, c, -, rfl⟩ | ⟨hpc, i, hi⟩
  · exact ⟨fun _ => by omega, fun _ => rfl⟩
  · exact ⟨fun _ => rfl, fun _ => by omega⟩
  · exact ⟨fun _ => (exec_effect hi).cycles_eq, fun _ => by omega⟩

/-- Settles O8: only a compare writes the flags, and it makes `less` false where it makes `equal` true. -/
theorem stepNeverSetsBothFlags : Obligations.StepNeverSetsBothFlags := by
  intro s t hs h
  refine step_keeps (P := fun s => ¬(s.equal = true ∧ s.less = true)) (fun _ _ hs => hs) (fun i s t he hs => ?_) h hs
  rcases he.flags with ⟨heq, hless⟩ | ⟨-, hel⟩
  · rwa [heq, hless]
  · rintro ⟨heq, hless⟩
    simp [hel heq] at hless

/-- Settles O52: of the effects of a handler, only a compare touches the flags. -/
theorem onlyComparesWriteFlags : Obligations.OnlyComparesWriteFlags :=
  fun _ _ _ hi h => (exec_effect h).flags.resolve_right fun hc => hi hc.1

/-- Settles O53: each effect writes a register only through its destination, `setSp` or `setPc`. -/
theorem registersChangeOnlyWhereNamed : Obligations.RegistersChangeOnlyWhereNamed :=
  fun _ _ _ _ _ h => (exec_effect h).regs_bit

/-- Settles O54: each effect stores only to a resolved destination or to the slot at `sp`. -/
theorem memoryChangesOnlyInStoreRange : Obligations.MemoryChangesOnlyInStoreRange :=
  fun _ _ _ _ h => (exec_effect h).mem_byte

/-- Settles O55: the streams and the capacity are fields of the frame, which only `getc_` and `putc_` touch there. -/
theorem streamsMoveOnlyByGetcAndPutc : Obligations.StreamsMoveOnlyByGetcAndPutc := by
  intro i s t h
  have he := exec_effect h
  obtain ⟨hinput, hended, hsize⟩ := he.host_eq
  exact ⟨hinput, hended, hsize, he.inPos, he.output⟩

end Sys2Proof.Machine

/-! The canonical form of memory, the reset state, what the host does between steps, and the fetch advance. -/

namespace Sys2Proof.Machine

/-! ## The canonical form of memory -/

/-- An address that no cell lists reads as an unlisted byte. -/
theorem Memory.read_unlisted {m : Memory} {a : Nat} (h : ∀ c ∈ m, c.1 ≠ a) : m.read a = unlistedByte := by
  induction m with
  | nil => rfl
  | cons d m ih =>
    obtain ⟨hd, hm⟩ := List.forall_mem_cons.1 h
    rw [Memory.read, if_neg hd.symm, ih hm]

/-- The cells of a canonical memory are exactly the bytes it reads that are not those of an unlisted address. -/
theorem Memory.mem_iff_read {m : Memory} (hm : m.wf) {c : Host.Cell} : c ∈ m ↔ m.read c.1 = c.2 ∧ c.2 ≠ unlistedByte := by
  induction m with
  | nil => simp only [Memory.read, List.not_mem_nil, false_iff]; rintro ⟨h, hne⟩; exact hne h.symm
  | cons d m ih =>
    obtain ⟨a, v⟩ := d
    obtain ⟨hlt, hrise⟩ := List.pairwise_cons.1 hm.1
    obtain ⟨hv, hlisted⟩ := List.forall_mem_cons.1 hm.2
    by_cases ha : c.1 = a
    · have hc : c ∉ m := fun hc => absurd (hlt c hc) (by simp [ha])
      simp only [List.mem_cons, hc, or_false, Memory.read, ha, if_true]
      constructor
      · rintro rfl; exact ⟨rfl, hv⟩
      · rintro ⟨rfl, -⟩; exact Prod.ext ha rfl
    · have hne : c ≠ (a, v) := fun h => ha (by rw [h])
      simp only [List.mem_cons, hne, false_or, Memory.read, ha, if_false]
      exact ih ⟨hrise, hlisted⟩

/-- Settles O27: both lists rise, and they have the same cells, since the cells are what the memory reads. -/
theorem canonicalMemoriesThatReadAlikeAreEqual : Obligations.CanonicalMemoriesThatReadAlikeAreEqual := by
  intro m m' hm hm' h
  have hmem (c : Host.Cell) : c ∈ m ↔ c ∈ m' := by rw [Memory.mem_iff_read hm, Memory.mem_iff_read hm', h]
  exact List.Pairwise.eq_of_mem_iff hm.1 hm'.1 hmem

/-! ## Reset and the host -/

/-- Settles O1: every field by evaluation; an empty memory lists no address. -/
theorem resetState : Obligations.ResetState := by
  refine ⟨fun r => ?_, by decide, by decide, fun _ => rfl, rfl, rfl, rfl, rfl, rfl, rfl, rfl, rfl, rfl, rfl, rfl⟩
  cases r <;> rfl

/-- A construction answers the reset state at the given capacity, exactly for the capacities of R6. -/
theorem construct_eq_some {n : Nat} {s : State} :
    construct n = some s ↔ (1 ≤ n ∧ n ≤ 65536) ∧ s = { State.reset with memSize := n } := by
  unfold construct Config.maxMemSize
  split <;> simp_all [eq_comm]

/-- The reset state at a legal capacity meets the invariant: its memory is empty. -/
theorem reset_memSize_inv {n : Nat} (hn : 1 ≤ n ∧ n ≤ 65536) : ({ State.reset with memSize := n } : State).Inv :=
  ⟨hn, ⟨⟨.nil, by simp [State.reset]⟩, by simp [State.reset]⟩, ⟨by simp [State.reset], rfl⟩, Nat.le_refl 0⟩

/-- A load answers memory with the image written from address 0 on, exactly where the image fits. -/
theorem load_eq_some {s t : State} {image : List Byte} :
    s.load image = some t ↔ image.length ≤ s.memSize ∧ t = { s with mem := s.mem.writeBytes 0 image } := by
  unfold State.load
  split <;> simp_all [eq_comm]

theorem load_inv {s t : State} {image : List Byte} (hs : s.Inv) (h : s.load image = some t) : t.Inv := by
  obtain ⟨hcap, hmem, hrest⟩ := hs
  obtain ⟨hlen, rfl⟩ := load_eq_some.1 h
  exact ⟨hcap, ⟨Memory.wf_writeBytes hmem.1 0 image, Memory.below_writeBytes hmem.2 (by omega)⟩, hrest⟩

theorem supplyInput_inv {s : State} (hs : s.Inv) (bs : List Byte) : (s.supplyInput bs).Inv := by
  obtain ⟨hcap, hmem, hstatus, hin⟩ := hs
  unfold State.supplyInput
  split
  · exact ⟨hcap, hmem, hstatus, hin⟩
  · exact ⟨hcap, hmem, hstatus, by simp only [State.InputOk, List.length_append]; omega⟩

/-- Settles O2: construction is reset at a legal capacity, and the image of a load fits in memory. -/
theorem resetAndLoadMeetInvariant : Obligations.ResetAndLoadMeetInvariant := by
  refine ⟨reset_memSize_inv (by decide), fun n => ?_, fun n s h => ?_, fun _ _ _ => load_inv, fun _ bs hs => supplyInput_inv hs bs,
    fun _ hs => hs⟩
  · simp [construct_eq_some]
  · obtain ⟨hn, rfl⟩ := construct_eq_some.1 h
    exact ⟨reset_memSize_inv hn, rfl, rfl, rfl, rfl⟩

/-- Settles O59: byte `a` of memory after the load is byte `a` of the image, or as before past its end. -/
theorem loadPlacesTheImageVerbatim : Obligations.LoadPlacesTheImageVerbatim := by
  intro s image
  refine ⟨fun hlong => if_neg (by omega), fun hfits => ⟨_, load_eq_some.2 ⟨hfits, rfl⟩, fun k b hb => ?_, fun a ha => ?_, rfl,
    ⟨rfl, rfl⟩, ⟨rfl, rfl, rfl, rfl, rfl⟩, ⟨rfl, rfl, rfl, rfl⟩⟩⟩
  · simp [Memory.read_writeBytes, hb]
  · simp [Memory.read_writeBytes, List.getElem?_eq_none ha]

/-- Settles O60: by the recorded cause. -/
theorem reportSaysFaulted : Obligations.ReportSaysFaulted := by
  intro s
  refine ⟨?_, rfl, rfl⟩
  show s.faulted = true ↔ _
  unfold State.faulted
  cases s.faultCause <;> simp

/-! ## The fetch advance and equivalent instructions -/

/-- Settles O11: the advance is a write of `pc` and a counted cycle. -/
theorem fetchAdvanceMovesPcOnly : Obligations.FetchAdvanceMovesPcOnly := by
  intro s n
  refine ⟨by simp, rfl, ⟨fun r hr => ?_, fun r k hk => ?_⟩, s.afterFetch_eq n⟩
  · exact Regs.get_set_ne _ _ (by simpa using hr)
  · rw [State.afterFetch, State.getLsbD_setPc, if_neg (by omega)]
    rfl

/-- The jump with code 0 is always taken: it is the move of its target to the register `pc` lies in (R26). -/
theorem execJmp_zero (w : Width) (target : Operand) (s : State) : execJmp w 0 target s = execMov .w2 target (.reg 5) s := by
  show finish s (match resolveRead s target .w2 with | .error c => .error c | .ok t => .ok (s.setPc t)) = _
  unfold execMov sourceToDest
  cases resolveRead s target .w2 <;> rfl

/-- Settles O56: `pos` and `mov` share their operator up to unfolding, and so do `sal` and `shl`. -/
theorem equivalentInstructions : Obligations.EquivalentInstructions :=
  fun w a _ _ s => ⟨execJmp_zero w a s, rfl, rfl⟩

end Sys2Proof.Machine

/-! Two states a relation holds of do the same, where the relation keeps all a handler looks at and every operation keeps the
relation. It is stated for any such relation, so that a noninterference claim needs only the relation's own laws. -/

namespace Sys2Proof.Machine

/-- Both results are values `A` relates, or both are errors `E` relates. -/
inductive ExceptRel {ε α : Type} (E : ε → ε → Prop) (A : α → α → Prop) : Except ε α → Except ε α → Prop where
  | ok {a b : α} (h : A a b) : ExceptRel E A (.ok a) (.ok b)
  | error {e f : ε} (h : E e f) : ExceptRel E A (.error e) (.error f)

/-- Both outcomes are next states `R` relates, or both are the same stop. -/
inductive OutcomeRel (R : State → State → Prop) :
    Host.Outcome State Fault Refusal → Host.Outcome State Fault Refusal → Prop where
  | next {s t : State} (h : R s t) : OutcomeRel R (.next s) (.next t)
  | fault (f : Fault) : OutcomeRel R (.fault f) (.fault f)

/-- The host gives both states the same answer, and leaves related states. -/
def InputAlike (R : State → State → Prop) (s t : State) : Prop :=
  (s.nextInput = none ∧ t.nextInput = none) ∨
    ∃ b s' t', s.nextInput = some (b, s') ∧ t.nextInput = some (b, t') ∧ R s' t'

/-- The relation keeps all that the fetch stage and the handlers look at, the input aside, and their operations keep the relation. -/
structure Simulation (R : State → State → Prop) : Prop where
  regs {s t : State} (h : R s t) : t.regs = s.regs
  mem {s t : State} (h : R s t) : t.mem = s.mem
  memSize {s t : State} (h : R s t) : t.memSize = s.memSize
  flags {s t : State} (h : R s t) : SameFlags s t
  raise {s t : State} (h : R s t) (c : Cause) : R (s.raise c) (t.raise c)
  regWrite {s t : State} (h : R s t) (r : Reg) (w : Width) (v : BitVec w.bits) : R (s.regWrite r w v) (t.regWrite r w v)
  putBytes {s t : State} (h : R s t) (a : Nat) (w : Width) (v : BitVec w.bits) : R (s.putBytes a w v) (t.putBytes a w v)
  setFlags {s t : State} (h : R s t) (e l : Bool) : R (s.setFlags e l) (t.setFlags e l)
  emit {s t : State} (h : R s t) (b : Byte) : R (s.emit b) (t.emit b)
  countCycle {s t : State} (h : R s t) : R s.countCycle t.countCycle

namespace Simulation

variable {R : State → State → Prop} {s t : State}

/-! ### The shared operations -/

theorem pc_eq (hR : Simulation R) (h : R s t) : t.pc = s.pc := by rw [State.pc, State.regRead, hR.regs h]; rfl

theorem sp_eq (hR : Simulation R) (h : R s t) : t.sp = s.sp := by rw [State.sp, State.regRead, hR.regs h]; rfl

theorem setPc_rel (hR : Simulation R) (h : R s t) (a : Word16) : R (s.setPc a) (t.setPc a) := hR.regWrite h .cur .w2 a

theorem setSp_rel (hR : Simulation R) (h : R s t) (a : Word16) : R (s.setSp a) (t.setSp a) := hR.regWrite h .stk .w2 a

theorem resolveRead_eq (hR : Simulation R) (h : R s t) (o : Operand) (w : Width) : resolveRead t o w = resolveRead s o w :=
  resolveRead_congr (hR.regs h) (hR.mem h) (hR.memSize h) o w

theorem memRead_eq (hR : Simulation R) (h : R s t) (a : Nat) (w : Width) : t.memRead a w = s.memRead a w := by
  unfold State.memRead State.inBounds; rw [hR.mem h, hR.memSize h]

theorem store_rel (hR : Simulation R) (h : R s t) (l : Loc) (w : Width) (v : BitVec w.bits) : R (s.store l w v) (t.store l w v) := by
  cases l with
  | reg r => exact hR.regWrite h r w v
  | mem a => exact hR.putBytes h a w v

theorem resolveWrite_rel (hR : Simulation R) (h : R s t) (o : Operand) (w : Width) (v : BitVec w.bits) :
    ExceptRel Eq R (resolveWrite s o w v) (resolveWrite t o w v) := by
  unfold resolveWrite
  rw [resolveLoc_congr (hR.regs h) (hR.memSize h)]
  cases resolveLoc s o w with
  | error c => exact .error rfl
  | ok l => exact .ok (hR.store_rel h l w v)

theorem pushValue_rel (hR : Simulation R) (h : R s t) (w : Width) (v : BitVec w.bits) :
    ExceptRel Eq R (pushValue s w v) (pushValue t w v) := by
  unfold pushValue State.memWrite State.inBounds
  rw [hR.sp_eq h, hR.memSize h]
  by_cases hb : s.sp.toNat + w.bytes ≤ s.memSize
  · simp only [hb, decide_true, if_true]
    exact .ok (hR.setSp_rel (hR.putBytes h _ w v) _)
  · simp only [hb, decide_false]
    exact .error rfl

theorem finish_rel (hR : Simulation R) (h : R s t) {r r' : Except Cause State} (hr : ExceptRel Eq R r r') :
    OutcomeRel R (finish s r) (finish t r') := by
  cases hr with
  | ok hst => exact .next hst
  | error hc => subst hc; exact .next (hR.raise h _)

/-! ### The handlers -/

theorem sourceToDest_rel (hR : Simulation R) (h : R s t) (w : Width) (op : BitVec w.bits → BitVec w.bits) (src dst : Operand) :
    OutcomeRel R (sourceToDest w op src dst s) (sourceToDest w op src dst t) := by
  refine hR.finish_rel h ?_
  rw [hR.resolveRead_eq h]
  cases resolveRead s src w with
  | error c => exact .error rfl
  | ok a => exact hR.resolveWrite_rel h dst w (op a)

theorem binaryOp_rel (hR : Simulation R) (h : R s t) (w : Width) (op : BitVec w.bits → BitVec w.bits → Except Cause (BitVec w.bits))
    (a b dst : Operand) : OutcomeRel R (binaryOp w op a b dst s) (binaryOp w op a b dst t) := by
  refine hR.finish_rel h ?_
  rw [hR.resolveRead_eq h, hR.resolveRead_eq h]
  cases resolveRead s a w with
  | error c => exact .error rfl
  | ok x =>
    cases resolveRead s b w with
    | error c => exact .error rfl
    | ok y =>
      dsimp only
      cases op x y with
      | error c => exact .error rfl
      | ok r => exact hR.resolveWrite_rel h dst w r

theorem extendOp_rel (hR : Simulation R) (h : R s t) (ext : (w tw : Width) → BitVec w.bits → BitVec tw.bits) (w : Width)
    (src dst : Operand) (sel : Word16) : OutcomeRel R (extendOp ext w src dst sel s) (extendOp ext w src dst sel t) := by
  refine hR.finish_rel h ?_
  rw [hR.resolveRead_eq h]
  cases targetWidth sel with
  | none => exact .error rfl
  | some tw =>
    cases resolveRead s src w with
    | error c => exact .error rfl
    | ok a => exact hR.resolveWrite_rel h dst tw (ext w tw a)

theorem compareOp_rel (hR : Simulation R) (h : R s t) (w : Width) (less : BitVec w.bits → BitVec w.bits → Bool) (a b : Operand) :
    OutcomeRel R (compareOp w less a b s) (compareOp w less a b t) := by
  refine hR.finish_rel h ?_
  rw [hR.resolveRead_eq h, hR.resolveRead_eq h]
  cases resolveRead s a w with
  | error c => exact .error rfl
  | ok x =>
    cases resolveRead s b w with
    | error c => exact .error rfl
    | ok y => exact .ok (hR.setFlags h _ _)

theorem execJmp_rel (hR : Simulation R) (h : R s t) (w : Width) (cc : Word16) (target : Operand) :
    OutcomeRel R (execJmp w cc target s) (execJmp w cc target t) := by
  obtain ⟨hequal, hless⟩ := hR.flags h
  refine hR.finish_rel h ?_
  rw [hequal, hless, hR.resolveRead_eq h]
  cases condition cc s.equal s.less with
  | none => exact .error rfl
  | some taken =>
    cases resolveRead s target Config.ptr with
    | error c => exact .error rfl
    | ok a =>
      cases taken with
      | false => exact .ok h
      | true => exact .ok (hR.setPc_rel h a)

theorem execStks_rel (hR : Simulation R) (h : R s t) (w : Width) (src : Operand) :
    OutcomeRel R (execStks w src s) (execStks w src t) := by
  refine hR.finish_rel h ?_
  rw [hR.resolveRead_eq h]
  cases resolveRead s src Config.ptr with
  | error c => exact .error rfl
  | ok v => exact .ok (hR.setSp_rel h v)

theorem execPush_rel (hR : Simulation R) (h : R s t) (w : Width) (src : Operand) :
    OutcomeRel R (execPush w src s) (execPush w src t) := by
  refine hR.finish_rel h ?_
  rw [hR.resolveRead_eq h]
  cases resolveRead s src w with
  | error c => exact .error rfl
  | ok v => exact hR.pushValue_rel h w v

theorem execPop_rel (hR : Simulation R) (h : R s t) (w : Width) (dst : Operand) :
    OutcomeRel R (execPop w dst s) (execPop w dst t) := by
  refine hR.finish_rel h ?_
  rw [hR.sp_eq h, hR.memRead_eq h]
  cases s.memRead (s.sp - BitVec.ofNat 16 w.bytes).toNat w with
  | error c => exact .error rfl
  | ok v => exact hR.resolveWrite_rel (hR.setSp_rel h _) dst w v

theorem execCall_rel (hR : Simulation R) (h : R s t) (w : Width) (target : Operand) :
    OutcomeRel R (execCall w target s) (execCall w target t) := by
  refine hR.finish_rel h ?_
  rw [hR.resolveRead_eq h, hR.pc_eq h]
  cases resolveRead s target Config.ptr with
  | error c => exact .error rfl
  | ok a =>
    have hpush := hR.pushValue_rel h Config.ptr s.pc
    dsimp only
    generalize pushValue s Config.ptr s.pc = r, pushValue t Config.ptr s.pc = r' at hpush
    cases hpush with
    | error hc => exact .error hc
    | ok hu => exact .ok (hR.setPc_rel hu a)

theorem execRet_rel (hR : Simulation R) (h : R s t) (w : Width) (count : Operand) :
    OutcomeRel R (execRet w count s) (execRet w count t) := by
  refine hR.finish_rel h ?_
  rw [hR.resolveRead_eq h, hR.sp_eq h]
  cases resolveRead s count w with
  | error c => exact .error rfl
  | ok n =>
    dsimp only
    rw [hR.memRead_eq h]
    cases s.memRead (s.sp - n.setWidth 16 - BitVec.ofNat 16 Config.ptr.bytes).toNat Config.ptr with
    | error c => exact .error rfl
    | ok ra => exact .ok (hR.setPc_rel (hR.setSp_rel h _) ra)

theorem execGetc_rel (hR : Simulation R) (h : R s t) (hin : InputAlike R s t) (w : Width) (dst : Operand) :
    OutcomeRel R (execGetc w dst s) (execGetc w dst t) := by
  unfold execGetc
  rw [resolveLoc_congr (hR.regs h) (hR.memSize h)]
  cases resolveLoc s dst .w1 with
  | error c => exact .next (hR.raise h c)
  | ok l =>
    rcases hin with ⟨hs, ht⟩ | ⟨b, s', t', hs, ht, hst⟩
    · simp only [hs, ht]; exact .fault _
    · simp only [hs, ht]; exact .next (hR.store_rel hst l .w1 b)

theorem execPutc_rel (hR : Simulation R) (h : R s t) (w : Width) (src : Operand) :
    OutcomeRel R (execPutc w src s) (execPutc w src t) := by
  refine hR.finish_rel h ?_
  rw [hR.resolveRead_eq h]
  cases resolveRead s src w with
  | error c => exact .error rfl
  | ok v => exact .ok (hR.emit h _)

/-- Every instruction does the same in both states; `getc_` where the host gives both the same answer. -/
theorem exec_rel (hR : Simulation R) (h : R s t) (i : Instr) (hin : i.mnemonic = .getc_ → InputAlike R s t) :
    OutcomeRel R (exec i s) (exec i t) := by
  cases i with
  | mov w src dst => exact hR.sourceToDest_rel h w id src dst
  | neg w src dst => exact hR.sourceToDest_rel h w unaryNeg src dst
  | pos w src dst => exact hR.sourceToDest_rel h w unaryPos src dst
  | lnot w src dst => exact hR.sourceToDest_rel h w unaryLnot src dst
  | bnot w src dst => exact hR.sourceToDest_rel h w unaryBnot src dst
  | add w a b dst => exact hR.binaryOp_rel h w (fun x y => .ok (aluAdd x y)) a b dst
  | sub w a b dst => exact hR.binaryOp_rel h w (fun x y => .ok (aluSub x y)) a b dst
  | mul w a b dst => exact hR.binaryOp_rel h w (fun x y => .ok (aluMul x y)) a b dst
  | udiv w a b dst => exact hR.binaryOp_rel h w aluUdiv a b dst
  | idiv w a b dst => exact hR.binaryOp_rel h w aluIdiv a b dst
  | shl w a b dst => exact hR.binaryOp_rel h w (fun x y => .ok (aluShl x y)) a b dst
  | shr w a b dst => exact hR.binaryOp_rel h w (fun x y => .ok (aluShr x y)) a b dst
  | sal w a b dst => exact hR.binaryOp_rel h w (fun x y => .ok (aluSal x y)) a b dst
  | sar w a b dst => exact hR.binaryOp_rel h w (fun x y => .ok (aluSar x y)) a b dst
  | and w a b dst => exact hR.binaryOp_rel h w (fun x y => .ok (aluAnd x y)) a b dst
  | or w a b dst => exact hR.binaryOp_rel h w (fun x y => .ok (aluOr x y)) a b dst
  | xor w a b dst => exact hR.binaryOp_rel h w (fun x y => .ok (aluXor x y)) a b dst
  | sxu w src dst sel => exact hR.extendOp_rel h extendZero w src dst sel
  | sxi w src dst sel => exact hR.extendOp_rel h extendSign w src dst sel
  | jmp w cc target => exact hR.execJmp_rel h w cc target
  | stks w src => exact hR.execStks_rel h w src
  | push w src => exact hR.execPush_rel h w src
  | pop w dst => exact hR.execPop_rel h w dst
  | call w target => exact hR.execCall_rel h w target
  | ret w count => exact hR.execRet_rel h w count
  | halt w => exact .next (hR.raise h .halt)
  | getc_ w dst => exact hR.execGetc_rel h (hin rfl) w dst
  | putc_ w src => exact hR.execPutc_rel h w src
  | ucmp w a b => exact hR.compareOp_rel h w compareLessUnsigned a b
  | icmp w a b => exact hR.compareOp_rel h w compareLessSigned a b

/-! ### The fetch stage -/

theorem fetchFields_rel (hR : Simulation R) (h : R s t) (k : Nat) :
    ExceptRel R (fun x y => y.1 = x.1 ∧ R x.2 y.2) (fetchFields k s) (fetchFields k t) := by
  induction k generalizing s t with
  | zero => exact .ok ⟨rfl, h⟩
  | succ k ih =>
    cases hs : fetchField s with
    | none =>
      have ht : fetchField t = none := by rwa [fetchField_none, hR.pc_eq h, hR.memSize h, ← fetchField_none]
      simp only [fetchFields, hs, ht]
      exact .error (hR.raise h _)
    | some x =>
      obtain ⟨f, u⟩ := x
      obtain ⟨hb, hf, rfl⟩ := fetchField_some.1 hs
      have ht : fetchField t = some (f, t.setPc (s.pc + 2#16)) :=
        fetchField_some.2 ⟨by rwa [hR.pc_eq h, hR.memSize h], by rwa [hR.pc_eq h, hR.mem h], by rw [hR.pc_eq h]⟩
      have hrest := ih (hR.setPc_rel h (s.pc + 2#16))
      simp only [fetchFields, hs, ht]
      generalize fetchFields k (s.setPc _) = r, fetchFields k (t.setPc _) = r' at hrest
      cases hrest with
      | error hu => exact .error hu
      | @ok a b hu => exact .ok ⟨by rw [hu.1], hu.2⟩

theorem fetch_rel (hR : Simulation R) (h : R s t) :
    ExceptRel R (fun x y => y.1 = x.1 ∧ R x.2 y.2) (fetch s) (fetch t) := by
  unfold fetch State.inBounds
  rw [hR.pc_eq h, hR.memSize h, hR.mem h]
  have hadv : R (s.afterFetch 1) (t.afterFetch 1) := by
    unfold State.afterFetch
    rw [hR.pc_eq h]
    exact hR.setPc_rel (hR.countCycle h) _
  split
  · dsimp only
    cases mnemonicOfByte (s.mem.read s.pc.toNat) with
    | none => exact .error (hR.raise hadv _)
    | some m =>
      have hfields := hR.fetchFields_rel hadv m.fieldCount
      dsimp only
      generalize fetchFields m.fieldCount (s.afterFetch 1) = r, fetchFields m.fieldCount (t.afterFetch 1) = r'
        at hfields
      cases hfields with
      | error hu => exact .error hu
      | ok hu => exact .ok ⟨by rw [hu.1], hu.2⟩
  · exact .error (hR.raise h _)

end Simulation

/-! ## What a program cannot observe -/

theorem sameToProgram_simulation : Simulation SameToProgram where
  regs := fun ⟨hregs, _⟩ => hregs
  mem := fun ⟨_, hmem, _⟩ => hmem
  memSize := fun ⟨_, _, hsize, _⟩ => hsize
  flags := fun ⟨_, _, _, hequal, hless, _⟩ => ⟨hequal, hless⟩
  raise h c := by simp_all [SameToProgram]
  regWrite h r w v := by simp_all [SameToProgram]
  putBytes h a w v := by simp_all [SameToProgram]
  setFlags h e l := by simp_all [SameToProgram]
  emit h b := by simp_all [SameToProgram]
  countCycle h := by simp_all [SameToProgram]

/-- The host's answer depends on the input stream alone, which a program can observe. -/
theorem sameToProgram_inputAlike {s t : State} (h : SameToProgram s t) : InputAlike SameToProgram s t := by
  obtain ⟨-, -, -, -, -, -, hin, hend, hpos⟩ := id h
  unfold InputAlike State.nextInput
  rw [hin, hend, hpos]
  cases s.input[s.inPos]? with
  | some b => exact .inr ⟨b, s.consume, t.consume, rfl, rfl, by simp_all [SameToProgram]⟩
  | none =>
    cases s.inputEnded with
    | true => exact .inr ⟨Config.eofByte, s, t, rfl, rfl, h⟩
    | false => exact .inl ⟨rfl, rfl⟩

theorem step_sameToProgram {s t : State} (h : SameToProgram s t) : OutcomeRel SameToProgram (step s) (step t) := by
  have hR := sameToProgram_simulation
  obtain ⟨-, -, -, -, -, hrun, -⟩ := id h
  unfold step
  rw [hrun]
  cases s.running with
  | false => exact .fault .halted
  | true =>
    have hfetch := hR.fetch_rel h
    dsimp only
    generalize fetch s = r, fetch t = r' at hfetch
    cases hfetch with
    | error hu => exact .next hu
    | @ok x y hu =>
      obtain ⟨i, u⟩ := x
      obtain ⟨j, v⟩ := y
      obtain ⟨rfl, huv⟩ := hu
      exact hR.exec_rel huv _ fun _ => sameToProgram_inputAlike huv

/-- Settles O9: what a program can observe is a simulation, which the fetch stage and every handler keep. -/
theorem unobservableStateHasNoInfluence : Obligations.UnobservableStateHasNoInfluence := by
  intro s s' t hs h
  have hstep := step_sameToProgram hs
  rw [h] at hstep
  generalize step s' = o at hstep
  cases hstep with
  | next ht => exact ⟨_, rfl, ht⟩

end Sys2Proof.Machine

/-! Reads and writes of memory (R51, R52): where they fault, and which bytes they give or change. -/

namespace Sys2Proof.Machine

/-- Settles O25: a read inside memory is `readLE`, whose bytes `extract_readLE` gives. -/
theorem memReadIsLittleEndian : Obligations.MemReadIsLittleEndian := by
  intro s a w
  constructor
  · intro hout
    exact State.memRead_error.2 ⟨hout, rfl⟩
  · intro hin
    exact ⟨s.mem.readLE a w.bytes, State.memRead_ok.2 ⟨hin, rfl⟩, fun _ hk => Memory.extract_readLE s.mem a hk⟩

/-- Settles O26: a write inside memory is the store to that location, which changes nothing else. -/
theorem memWriteIsLittleEndian : Obligations.MemWriteIsLittleEndian := by
  intro s a w v
  constructor
  · intro hout
    exact State.memWrite_error.2 ⟨hout, rfl⟩
  · intro hin
    obtain ⟨⟨hbytes, hregs⟩, hflags, hstatus, hstreams⟩ := store_storedOnly s (.mem a) w v
    exact ⟨s.putBytes a w v, State.memWrite_ok.2 ⟨hin, rfl⟩, hbytes, hregs, hflags, hstatus, hstreams⟩

end Sys2Proof.Machine

/-! The encoding (R80 to R95): the decoder gives an instruction back from its bytes, and every decoded list of bytes is an encoding. -/

namespace Sys2Proof

/-! ## Operand fields -/

/-- A field is its top two bits in front of its payload (R84). -/
theorem field_eq_append (f : Word16) : (f.extractLsb' 14 2 ++ f.extractLsb' 0 14 : BitVec 16) = f :=
  BitVec.extractLsb'_append_extractLsb'_eq_extractLsb' rfl |>.trans BitVec.extractLsb'_eq_self

/-- The top two bits of a field, as the flags `R` and `M` (R84). -/
theorem field_flags (f : Word16) : f.extractLsb' 14 2 = BitVec.ofBool (f.getLsbD 15) ++ BitVec.ofBool (f.getLsbD 14) := by
  refine BitVec.eq_of_getLsbD_eq fun k hk => ?_
  rw [BitVec.getLsbD_extractLsb', BitVec.getLsbD_append]
  interval_cases k <;> simp

/-- Every field is the encoding of the operand it reads as (R86). -/
@[simp] theorem Operand.toField_ofField (f : Word16) : (Operand.ofField f).toField = f := by
  conv_rhs => rw [← field_eq_append f, field_flags f]
  unfold Operand.ofField
  cases f.getLsbD 15 <;> cases f.getLsbD 14 <;> rfl

/-- A field's value: its flags at bits 15 and 14, then its payload (R84). -/
theorem toNat_flags_append (flags : BitVec 2) (p : BitVec 14) : (flags ++ p : BitVec 16).toNat = 0x4000 * flags.toNat + p.toNat := by
  rw [BitVec.toNat_append, ← Nat.shiftLeft_add_eq_or_of_lt p.isLt, Nat.shiftLeft_eq, Nat.mul_comm]

/-- Settles O20: an operand's field is its two flags in front of its payload. -/
theorem operandFieldLayout : Obligations.OperandFieldLayout :=
  ⟨fun p => ⟨(toNat_flags_append 0b00#2 p).trans (Nat.zero_add _), toNat_flags_append 0b10#2 p, toNat_flags_append 0b01#2 p,
    toNat_flags_append 0b11#2 p⟩, Operand.toField_ofField⟩

/-! ## The fields of an instruction -/

/-- An instruction has the fields its format asks for, and they assemble to it again (R89). -/
theorem encodedShape (i : Instr) : Laws.EncodedShape.Statement i := by
  cases i with
  | mov w src dst => exact Laws.EncodedShape.mov w src dst
  | add w a b dst => exact Laws.EncodedShape.add w a b dst
  | sub w a b dst => exact Laws.EncodedShape.sub w a b dst
  | mul w a b dst => exact Laws.EncodedShape.mul w a b dst
  | udiv w a b dst => exact Laws.EncodedShape.udiv w a b dst
  | idiv w a b dst => exact Laws.EncodedShape.idiv w a b dst
  | shl w a b dst => exact Laws.EncodedShape.shl w a b dst
  | shr w a b dst => exact Laws.EncodedShape.shr w a b dst
  | sal w a b dst => exact Laws.EncodedShape.sal w a b dst
  | sar w a b dst => exact Laws.EncodedShape.sar w a b dst
  | and w a b dst => exact Laws.EncodedShape.and w a b dst
  | or w a b dst => exact Laws.EncodedShape.or w a b dst
  | xor w a b dst => exact Laws.EncodedShape.xor w a b dst
  | neg w src dst => exact Laws.EncodedShape.neg w src dst
  | pos w src dst => exact Laws.EncodedShape.pos w src dst
  | lnot w src dst => exact Laws.EncodedShape.lnot w src dst
  | bnot w src dst => exact Laws.EncodedShape.bnot w src dst
  | sxu w src dst sel => exact Laws.EncodedShape.sxu w src dst sel
  | sxi w src dst sel => exact Laws.EncodedShape.sxi w src dst sel
  | jmp w cc target => exact Laws.EncodedShape.jmp w cc target
  | stks w src => exact Laws.EncodedShape.stks w src
  | push w src => exact Laws.EncodedShape.push w src
  | pop w dst => exact Laws.EncodedShape.pop w dst
  | call w target => exact Laws.EncodedShape.call w target
  | ret w count => exact Laws.EncodedShape.ret w count
  | halt w => exact Laws.EncodedShape.halt w
  | getc_ w dst => exact Laws.EncodedShape.getc_ w dst
  | putc_ w src => exact Laws.EncodedShape.putc_ w src
  | ucmp w a b => exact Laws.EncodedShape.ucmp w a b
  | icmp w a b => exact Laws.EncodedShape.icmp w a b

@[simp] theorem width_assemble (m : Mnemonic) (w : Width) (fs : List Word16) : (assemble m w fs).width = w := by
  cases m <;> rfl

/-- An instruction assembled from as many fields as its format asks for has those fields (R89). -/
theorem fields_assemble {m : Mnemonic} {fs : List Word16} (h : fs.length = m.fieldCount) (w : Width) :
    (assemble m w fs).fields = fs := by
  cases m with
  | halt =>
    rw [List.length_eq_zero_iff.1 h]
    rfl
  | stks | push | pop | call | ret | getc_ | putc_ =>
    obtain ⟨f, rfl⟩ := List.length_eq_one_iff.1 h
    simp [assemble, Instr.fields]
  | mov | neg | pos | lnot | bnot | jmp | ucmp | icmp =>
    obtain ⟨f, g, rfl⟩ := List.length_eq_two.1 h
    simp [assemble, Instr.fields]
  | add | sub | mul | udiv | idiv | shl | shr | sal | sar | and | or | xor | sxu | sxi =>
    obtain ⟨f, g, k, rfl⟩ := List.length_eq_three.1 h
    simp [assemble, Instr.fields]

/-- The encoding of an assembled instruction is its opcode byte and the fields it was assembled from (R80). -/
theorem encode_assemble {m : Mnemonic} {fs : List Word16} (h : fs.length = m.fieldCount) (w : Width) :
    encode (assemble m w fs) = opcodeByte m w :: fieldBytes fs := by
  rw [encode, Machine.mnemonic_assemble, width_assemble, fields_assemble h]

/-! ## The decoder -/

/-- Bytes decode exactly where the opcode byte names a mnemonic and the fields of its format follow. -/
theorem decode_ok {bs rest : List Byte} {i : Instr} :
    decode bs = .ok (i, rest) ↔ ∃ b bs' m fs, bs = b :: bs' ∧ mnemonicOfByte b = some m ∧
      takeFields m.fieldCount bs' = some (fs, rest) ∧ i = assemble m (widthOfByte b) fs := by
  cases bs with
  | nil => simp [decode]
  | cons b bs' =>
    cases hm : mnemonicOfByte b with
    | none => simp [decode, hm]
    | some m =>
      rcases hf : takeFields m.fieldCount bs' with _ | ⟨fs, r⟩
      · simp [decode, hm, hf]
      · simp [decode, hm, hf, eq_comm, and_comm]

/-- An opcode byte that names no mnemonic is refused by its index, whatever follows (R93). -/
theorem decode_unassigned {b : Byte} (h : mnemonicOfByte b = none) (bs : List Byte) :
    decode (b :: bs) = .error (.unassigned (opcodeIndex b)) := by
  simp only [decode, h]

/-- Settles O17: the opcode byte gives the mnemonic and the width back, and the bytes of the fields the fields. -/
theorem decodeOfEncode : Obligations.DecodeOfEncode := by
  intro i rest
  obtain ⟨hlen, hasm⟩ := encodedShape i
  have htake : takeFields i.mnemonic.fieldCount (fieldBytes i.fields ++ rest) = some (i.fields, rest) :=
    hlen ▸ takeFields_fieldBytes i.fields rest
  exact decode_ok.2 ⟨_, _, _, _, rfl, mnemonicOfByte_opcodeByte _ _, htake, by rw [widthOfByte_opcodeByte, hasm]⟩

/-- Settles O18: the opcode byte is that of its mnemonic and width, and the fields taken are written back as they were. -/
theorem encodeOfDecode : Obligations.EncodeOfDecode := by
  intro bs rest i h
  obtain ⟨b, bs', m, fs, rfl, hm, hf, rfl⟩ := decode_ok.1 h
  obtain ⟨hlen, hbytes⟩ := fieldBytes_of_takeFields hf
  rw [encode_assemble hlen, opcodeByte_of_mnemonicOfByte hm, List.cons_append, hbytes]

/-! ## Lengths -/

@[simp] theorem length_fieldBytes (fs : List Word16) : (fieldBytes fs).length = 2 * fs.length := by
  induction fs with
  | nil => rfl
  | cons f fs ih => simp only [fieldBytes, List.length_cons, ih]; omega

theorem length_encode (i : Instr) : (encode i).length = i.length := by
  rw [encode, List.length_cons, length_fieldBytes, (encodedShape i).1, Instr.length, Nat.add_comm]

/-- Settles O21: two bytes for each field the format asks for, after the opcode byte. -/
theorem encodedLengths : Obligations.EncodedLengths := by
  refine fun i => ⟨length_encode i, ?_⟩
  unfold Instr.length
  cases i.mnemonic <;> rfl

/-! ## Opcode bytes -/

theorem opcodeIndex_toNat (b : Byte) : (opcodeIndex b).toNat = b.toNat % 64 := by
  simp [opcodeIndex]

/-- The assigned opcode indices are those below 30, and the mnemonic's own is the byte's (R92). -/
theorem mnemonicOfByte_some {b : Byte} (h : b.toNat % 64 < 30) : ∃ m, mnemonicOfByte b = some m ∧ m.index = b.toNat % 64 := by
  have hm : mnemonicOfByte b = some opcodeMap[b.toNat % 64] := by
    rw [mnemonicOfByte, opcodeIndex_toNat]
    exact List.getElem?_eq_getElem h
  exact ⟨_, hm, (index_of_opcodeMap hm).trans (opcodeIndex_toNat b)⟩

/-- The other indices are unassigned (R93). -/
theorem mnemonicOfByte_none {b : Byte} (h : 30 ≤ b.toNat % 64) : mnemonicOfByte b = none := by
  rw [mnemonicOfByte, opcodeIndex_toNat]
  exact List.getElem?_eq_none h

/-- Fields can be taken from any list of enough bytes. -/
theorem takeFields_some {k : Nat} {bs : List Byte} (h : 2 * k ≤ bs.length) : ∃ fs rest, takeFields k bs = some (fs, rest) := by
  induction k generalizing bs with
  | zero => exact ⟨[], bs, rfl⟩
  | succ k ih =>
    match bs with
    | [] | [_] => rw [Nat.mul_succ] at h; simp at h
    | hi :: lo :: bs =>
      obtain ⟨fs, rest, hfs⟩ := ih (bs := bs) (by simp at h; omega)
      exact ⟨fieldOfBytes hi lo :: fs, rest, by simp only [takeFields, hfs]⟩

/-- No format has more than three fields (R90). -/
theorem fieldCount_le (m : Mnemonic) : m.fieldCount ≤ 3 := by
  cases m <;> decide

/-- Settles O19: an assigned index names a mnemonic, whose fields take at most six bytes; any other names none. -/
theorem sevenBytesDecodeUnlessUnassigned : Obligations.SevenBytesDecodeUnlessUnassigned := by
  refine fun b bs hlen => ⟨fun hb => ?_, fun hb => decode_unassigned (mnemonicOfByte_none hb) bs⟩
  obtain ⟨m, hm, hindex⟩ := mnemonicOfByte_some hb
  obtain ⟨fs, rest, hfs⟩ := takeFields_some (bs := bs) (k := m.fieldCount) (by have := fieldCount_le m; omega)
  exact ⟨_, rest, decode_ok.2 ⟨b, bs, m, fs, rfl, hm, hfs, rfl⟩, by rw [Machine.mnemonic_assemble, hindex]⟩

/-- Settles O22: the decoder, run on each of the words. -/
theorem specWordsDecode : Obligations.SpecWordsDecode :=
  ⟨rfl, rfl, rfl, rfl, rfl, rfl, rfl, rfl, rfl⟩

end Sys2Proof

namespace Sys2Proof.Machine

/-- Settles O14: the fetch stage finds no mnemonic for the byte at `pc`, past which it has moved. -/
theorem unassignedOpcodeRaisesDecodeFault : Obligations.UnassignedOpcodeRaisesDecodeFault := by
  intro s hrun hpc hb
  have hin : s.inBounds s.pc.toNat 1 = true := decide_eq_true hpc
  have hnone : mnemonicOfByte (s.mem.read s.pc.toNat) = none := by
    have h0 : codeAt s 0 = s.mem.read s.pc.toNat := by simp [codeAt]
    exact mnemonicOfByte_none (h0 ▸ hb)
  have hfetch : fetch s = .error ((s.afterFetch 1).raise .decodeFault) := by
    simp only [fetch, hin, hnone, if_true]
  simp only [step, hrun, hfetch]

end Sys2Proof.Machine

/-! Legal and illegal fields (R94): what each check of a handler lets pass, and the cause it faults with. -/

namespace Sys2Proof.Machine

/-! ## What the checks on single fields let pass -/

theorem resolveReg_ok_le {p : BitVec 14} {r : Reg} (h : resolveReg p = .ok r) : p.toNat ≤ 5 := by
  by_contra hp
  rw [resolveReg_error.2 ⟨Nat.lt_of_not_le hp, rfl⟩] at h
  cases h

theorem resolveReg_error_illegal {p : BitVec 14} {c : Cause} (h : resolveReg p = .error c) :
    c = .regOutOfBounds ∧ decide (p.toNat ≤ 5) = false := by
  obtain ⟨hp, rfl⟩ := resolveReg_error.1 h
  exact ⟨rfl, decide_eq_false (Nat.not_le.2 hp)⟩

/-- A source resolves only where its encoding is legal (R94, R116). -/
theorem resolveRead_ok_sourceOk {s : State} {o : Operand} {w : Width} {v : BitVec w.bits} (h : resolveRead s o w = .ok v) :
    o.sourceOk = true := by
  cases o with
  | imm p => rfl
  | mem p => rfl
  | reg p | ind p =>
    simp only [resolveRead] at h
    split at h
    · cases h
    · rename_i r hr
      exact decide_eq_true (resolveReg_ok_le hr)

/-- A source faults outside memory, or because its encoding is illegal (R94, R116). -/
theorem resolveRead_error_cases {s : State} {o : Operand} {w : Width} {c : Cause} (h : resolveRead s o w = .error c) :
    c = .memOutOfBounds ∨ (c = .regOutOfBounds ∧ o.sourceOk = false) := by
  cases o with
  | imm p => cases h
  | mem p => exact .inl (State.memRead_error.1 h).2
  | reg p =>
    simp only [resolveRead] at h
    split at h
    · rename_i d hd
      cases h
      exact .inr (resolveReg_error_illegal hd)
    · cases h
  | ind p =>
    simp only [resolveRead] at h
    split at h
    · rename_i d hd
      cases h
      exact .inr (resolveReg_error_illegal hd)
    · exact .inl (State.memRead_error.1 h).2

/-- A destination resolves only where its encoding is legal (R94, R118). -/
theorem resolveLoc_ok_destOk {s : State} {o : Operand} {w : Width} {l : Loc} (h : resolveLoc s o w = .ok l) :
    o.destOk = true := by
  cases o with
  | imm p => cases h
  | mem p => rfl
  | reg p | ind p =>
    simp only [resolveLoc] at h
    split at h
    · cases h
    · rename_i r hr
      exact decide_eq_true (resolveReg_ok_le hr)

/-- A destination faults outside memory, or because its encoding is illegal (R94, R118). -/
theorem resolveLoc_error_cases {s : State} {o : Operand} {w : Width} {c : Cause} (h : resolveLoc s o w = .error c) :
    c = .memOutOfBounds ∨ ((c = .regOutOfBounds ∨ c = .invalidWriteTarget) ∧ o.destOk = false) := by
  cases o with
  | imm p => cases h; exact .inr ⟨.inr rfl, rfl⟩
  | mem p => exact .inl (State.locAt_error.1 h).2
  | reg p =>
    simp only [resolveLoc] at h
    split at h
    · rename_i d hd
      cases h
      exact .inr ((resolveReg_error_illegal hd).imp_left .inl)
    · cases h
  | ind p =>
    simp only [resolveLoc] at h
    split at h
    · rename_i d hd
      cases h
      exact .inr ((resolveReg_error_illegal hd).imp_left .inl)
    · exact .inl (State.locAt_error.1 h).2

/-- A condition code has a condition exactly where it is legal (R94, R191). -/
theorem condition_isSome (cc : Word16) (equal less : Bool) : (condition cc equal less).isSome = condOk cc := by
  unfold condition condOk
  split <;> simp_all
  omega

/-- A selector has a target width exactly where it is legal (R94, R180). -/
theorem targetWidth_isSome (sel : Word16) : (targetWidth sel).isSome = selOk sel := by
  unfold targetWidth selOk
  split <;> simp_all

/-! ## What the checks of a handler make of its result -/

/-- The causes that stand for an illegal encoding of an instruction's fields (R94). -/
def encodingFaults : List Cause := [.regOutOfBounds, .invalidWriteTarget, .invalidJumpCondition, .invalidExtendWidth]

/-- A fault the checks allow: its cause is of the list, and no encoding fault where the fields are legal (`ok`). -/
def AllowedFault (ok : Bool) (causes : List Cause) (c : Cause) : Prop := c ∈ causes ∧ (ok = true → c ∉ encodingFaults)

/-- The result of a handler in `s` that checks its fields: it is complete only where they are legal (`ok`), with
the recorded cause as before, and it faults only as allowed. -/
def Checked (ok : Bool) (causes : List Cause) (s : State) : Except Cause State → Prop
  | .ok t => ok = true ∧ t.faultCause = s.faultCause
  | .error c => AllowedFault ok causes c

section

variable {ok : Bool} {causes : List Cause} {s s' : State} {o : Operand} {w : Width} {c : Cause}

/-- A fault that is no encoding fault is allowed whatever the fields are. -/
theorem AllowedFault.ofNotEncoding (hc : c ∈ causes) (hne : c ∉ encodingFaults) : AllowedFault ok causes c := ⟨hc, fun _ => hne⟩

/-- Any fault of the list is allowed where a field is illegal. -/
theorem AllowedFault.ofIllegal (hc : c ∈ causes) (hok : ok = false) : AllowedFault ok causes c := ⟨hc, by simp [hok]⟩

/-- A fault that the first fields allow is allowed whatever the others are. -/
theorem AllowedFault.andLeft {ok' : Bool} (h : AllowedFault ok causes c) : AllowedFault (ok && ok') causes c := by
  obtain ⟨hc, hne⟩ := h
  exact ⟨hc, fun hok => hne (Bool.and_eq_true_iff.1 hok).1⟩

/-- The fault of a source operand is allowed. -/
theorem AllowedFault.ofRead (h : resolveRead s o w = .error c) (hcs : [.memOutOfBounds, .regOutOfBounds] ⊆ causes) :
    AllowedFault o.sourceOk causes c := by
  rcases resolveRead_error_cases h with rfl | ⟨rfl, ho⟩
  · exact .ofNotEncoding (hcs (by simp)) (by decide)
  · exact .ofIllegal (hcs (by simp)) ho

/-- The fault of a destination operand is allowed. -/
theorem AllowedFault.ofLoc (h : resolveLoc s o w = .error c)
    (hcs : [.memOutOfBounds, .regOutOfBounds, .invalidWriteTarget] ⊆ causes) : AllowedFault o.destOk causes c := by
  rcases resolveLoc_error_cases h with rfl | ⟨rfl | rfl, ho⟩
  · exact .ofNotEncoding (hcs (by simp)) (by decide)
  · exact .ofIllegal (hcs (by simp)) ho
  · exact .ofIllegal (hcs (by simp)) ho

/-- The fault of a read of memory is allowed. -/
theorem AllowedFault.ofMemRead {a : Nat} (h : s.memRead a w = .error c) (hm : .memOutOfBounds ∈ causes) : AllowedFault ok causes c := by
  obtain ⟨-, rfl⟩ := State.memRead_error.1 h
  exact .ofNotEncoding hm (by decide)

/-- The fault of a push is allowed. -/
theorem AllowedFault.ofPush {v : BitVec w.bits} (h : pushValue s w v = .error c) (hm : .memOutOfBounds ∈ causes) :
    AllowedFault ok causes c := by
  obtain ⟨-, rfl⟩ := pushValue_error.1 h
  exact .ofNotEncoding hm (by decide)

/-- A push records no cause. -/
theorem pushValue_faultCause {t : State} {v : BitVec w.bits} (h : pushValue s w v = .ok t) : t.faultCause = s.faultCause := by
  obtain ⟨-, rfl⟩ := pushValue_ok.1 h
  rfl

/-- Where a source operand resolves, it is legal, and the fields after it decide. -/
theorem Checked.afterRead {v : BitVec w.bits} {r : Except Cause State} (h : resolveRead s o w = .ok v)
    (hr : Checked ok causes s r) : Checked (o.sourceOk && ok) causes s r := by
  rwa [resolveRead_ok_sourceOk h, Bool.true_and]

/-- A store at a destination operand ends a handler. -/
theorem Checked.write (hs : s'.faultCause = s.faultCause) (v : BitVec w.bits)
    (hcs : [.memOutOfBounds, .regOutOfBounds, .invalidWriteTarget] ⊆ causes) :
    Checked o.destOk causes s (resolveWrite s' o w v) := by
  cases h : resolveWrite s' o w v with
  | error c => exact .ofLoc (resolveWrite_error.1 h) hcs
  | ok t =>
    obtain ⟨l, hl, rfl⟩ := resolveWrite_ok.1 h
    obtain ⟨-, -, ⟨-, -, -, -, hcause⟩, -⟩ := store_storedOnly s' l w v
    exact ⟨resolveLoc_ok_destOk hl, hcause.trans hs⟩

end

/-! ## The handlers -/

/-- The outcome is that of a result which the handler's checks allow. -/
def ChecksFields (ok : Bool) (causes : List Cause) (s : State) (x : Host.Outcome State Fault Refusal) : Prop :=
  ∃ r, x = finish s r ∧ Checked ok causes s r

theorem sourceToDest_checks (w : Width) (op : BitVec w.bits → BitVec w.bits) (src dst : Operand) (s : State) :
    ChecksFields (src.sourceOk && dst.destOk) [.memOutOfBounds, .regOutOfBounds, .invalidWriteTarget] s
      (sourceToDest w op src dst s) := by
  refine ⟨_, rfl, ?_⟩
  cases ha : resolveRead s src w with
  | error c => exact .andLeft (.ofRead ha (by simp))
  | ok a => exact .afterRead ha (.write rfl (op a) (by simp))

/-- The operator itself may fault with causes `ds` that are no encoding faults. -/
theorem binaryOp_checks (w : Width) (op : BitVec w.bits → BitVec w.bits → Except Cause (BitVec w.bits)) (a b dst : Operand) (s : State)
    (ds : List Cause) (hop : ∀ x y c, op x y = .error c → c ∈ ds ∧ c ∉ encodingFaults) :
    ChecksFields (a.sourceOk && b.sourceOk && dst.destOk) ([.memOutOfBounds, .regOutOfBounds, .invalidWriteTarget] ++ ds) s
      (binaryOp w op a b dst s) := by
  refine ⟨_, rfl, ?_⟩
  rw [Bool.and_assoc]
  cases hx : resolveRead s a w with
  | error c => exact .andLeft (.ofRead hx (by simp))
  | ok x =>
    refine .afterRead hx ?_
    cases hy : resolveRead s b w with
    | error c => exact .andLeft (.ofRead hy (by simp))
    | ok y =>
      refine .afterRead hy ?_
      cases hr : op x y with
      | error c =>
        obtain ⟨hds, hne⟩ := hop x y c hr
        simp only [hr]
        exact .ofNotEncoding (List.mem_append_right _ hds) hne
      | ok r =>
        simp only [hr]
        exact .write rfl r (by simp)

theorem totalOp_checks (w : Width) (f : BitVec w.bits → BitVec w.bits → BitVec w.bits) (a b dst : Operand) (s : State) :
    ChecksFields (a.sourceOk && b.sourceOk && dst.destOk) [.memOutOfBounds, .regOutOfBounds, .invalidWriteTarget] s
      (binaryOp w (fun x y => .ok (f x y)) a b dst s) :=
  binaryOp_checks w _ a b dst s [] nofun

theorem division_checks (w : Width) (op : BitVec w.bits → BitVec w.bits → Except Cause (BitVec w.bits)) (a b dst : Operand) (s : State)
    (hop : ∀ x y c, op x y = .error c → c = .divideByZero) :
    ChecksFields (a.sourceOk && b.sourceOk && dst.destOk) [.memOutOfBounds, .regOutOfBounds, .invalidWriteTarget, .divideByZero] s
      (binaryOp w op a b dst s) :=
  binaryOp_checks w op a b dst s [.divideByZero] fun x y c h => by rw [hop x y c h]; decide

theorem extendOp_checks (ext : (w tw : Width) → BitVec w.bits → BitVec tw.bits) (w : Width) (src dst : Operand) (sel : Word16)
    (s : State) :
    ChecksFields (src.sourceOk && dst.destOk && selOk sel)
      [.memOutOfBounds, .regOutOfBounds, .invalidWriteTarget, .invalidExtendWidth] s (extendOp ext w src dst sel s) := by
  refine ⟨_, rfl, ?_⟩
  rw [← targetWidth_isSome]
  cases targetWidth sel with
  | none => exact .ofIllegal (by simp) (Bool.and_false _)
  | some tw =>
    rw [Option.isSome_some, Bool.and_true]
    cases ha : resolveRead s src w with
    | error c => exact .andLeft (.ofRead ha (by simp))
    | ok a => exact .afterRead ha (.write rfl (ext w tw a) (by simp))

theorem compareOp_checks (w : Width) (less : BitVec w.bits → BitVec w.bits → Bool) (a b : Operand) (s : State) :
    ChecksFields (a.sourceOk && b.sourceOk) [.memOutOfBounds, .regOutOfBounds] s (compareOp w less a b s) := by
  refine ⟨_, rfl, ?_⟩
  cases hx : resolveRead s a w with
  | error c => exact .andLeft (.ofRead hx (by simp))
  | ok x =>
    refine .afterRead hx ?_
    cases hy : resolveRead s b w with
    | error c => exact .ofRead hy (by simp)
    | ok y => exact ⟨resolveRead_ok_sourceOk hy, rfl⟩

theorem execJmp_checks (w : Width) (cc : Word16) (target : Operand) (s : State) :
    ChecksFields (condOk cc && target.sourceOk) [.memOutOfBounds, .regOutOfBounds, .invalidJumpCondition] s
      (execJmp w cc target s) := by
  refine ⟨_, rfl, ?_⟩
  rw [← condition_isSome cc s.equal s.less]
  cases condition cc s.equal s.less with
  | none => exact .ofIllegal (by simp) rfl
  | some taken =>
    cases ht : resolveRead s target .w2 with
    | error c => exact .ofRead ht (by simp)
    | ok t => exact ⟨resolveRead_ok_sourceOk ht, by cases taken <;> rfl⟩

theorem execStks_checks (w : Width) (src : Operand) (s : State) :
    ChecksFields src.sourceOk [.memOutOfBounds, .regOutOfBounds] s (execStks w src s) := by
  refine ⟨_, rfl, ?_⟩
  cases hv : resolveRead s src .w2 with
  | error c => exact .ofRead hv (by simp)
  | ok v => exact ⟨resolveRead_ok_sourceOk hv, rfl⟩

theorem execPutc_checks (w : Width) (src : Operand) (s : State) :
    ChecksFields src.sourceOk [.memOutOfBounds, .regOutOfBounds] s (execPutc w src s) := by
  refine ⟨_, rfl, ?_⟩
  cases hv : resolveRead s src w with
  | error c => exact .ofRead hv (by simp)
  | ok v => exact ⟨resolveRead_ok_sourceOk hv, rfl⟩

theorem execPush_checks (w : Width) (src : Operand) (s : State) :
    ChecksFields src.sourceOk [.memOutOfBounds, .regOutOfBounds] s (execPush w src s) := by
  refine ⟨_, rfl, ?_⟩
  cases hv : resolveRead s src w with
  | error c => exact .ofRead hv (by simp)
  | ok v =>
    show Checked _ _ _ (pushValue s w v)
    cases ht : pushValue s w v with
    | error c => exact .ofPush ht (by simp)
    | ok t => exact ⟨resolveRead_ok_sourceOk hv, pushValue_faultCause ht⟩

theorem execPop_checks (w : Width) (dst : Operand) (s : State) :
    ChecksFields dst.destOk [.memOutOfBounds, .regOutOfBounds, .invalidWriteTarget] s (execPop w dst s) := by
  refine ⟨_, rfl, ?_⟩
  cases hv : s.memRead (s.sp - BitVec.ofNat 16 w.bytes).toNat w with
  | error c => exact .ofMemRead hv (by simp)
  | ok v => exact .write rfl v (by simp)

theorem execCall_checks (w : Width) (target : Operand) (s : State) :
    ChecksFields target.sourceOk [.memOutOfBounds, .regOutOfBounds] s (execCall w target s) := by
  refine ⟨_, rfl, ?_⟩
  cases ht : resolveRead s target Config.ptr with
  | error c => exact .ofRead ht (by simp)
  | ok t =>
    cases hu : pushValue s Config.ptr s.pc with
    | error c => exact .ofPush hu (by simp)
    | ok u => exact ⟨resolveRead_ok_sourceOk ht, (State.setPc_faultCause u t).trans (pushValue_faultCause hu)⟩

theorem execRet_checks (w : Width) (count : Operand) (s : State) :
    ChecksFields count.sourceOk [.memOutOfBounds, .regOutOfBounds] s (execRet w count s) := by
  refine ⟨_, rfl, ?_⟩
  cases hn : resolveRead s count w with
  | error c => exact .ofRead hn (by simp)
  | ok n =>
    dsimp only
    cases hra : s.memRead (s.sp - n.setWidth 16 - BitVec.ofNat 16 Config.ptr.bytes).toNat Config.ptr with
    | error c => exact .ofMemRead hra (by simp)
    | ok ra => exact ⟨resolveRead_ok_sourceOk hn, rfl⟩

/-- `getc_` checks its destination, or waits for the host once the destination is legal (R221). -/
theorem execGetc_checks (w : Width) (dst : Operand) (s : State) :
    ChecksFields dst.destOk [.memOutOfBounds, .regOutOfBounds, .invalidWriteTarget] s (execGetc w dst s) ∨
      (dst.destOk = true ∧ execGetc w dst s = .fault .awaitingInput) := by
  unfold execGetc
  cases hl : resolveLoc s dst .w1 with
  | error c => exact .inl ⟨.error c, rfl, .ofLoc hl (by simp)⟩
  | ok l =>
    have hok := resolveLoc_ok_destOk hl
    rcases nextInput_cases s with ⟨b, -, hin⟩ | ⟨-, -, hin⟩ | ⟨-, hin⟩
    · rw [hin]
      exact .inl ⟨.ok (s.consume.store l .w1 b), rfl, hok, by cases l <;> rfl⟩
    · rw [hin]
      exact .inl ⟨.ok (s.store l .w1 Config.eofByte), rfl, hok, by cases l <;> rfl⟩
    · rw [hin]
      exact .inr ⟨hok, rfl⟩

theorem aluUdiv_error {n : Nat} (x y : BitVec n) (c : Cause) (h : aluUdiv x y = .error c) : c = .divideByZero := by
  unfold aluUdiv at h
  split at h <;> cases h
  rfl

theorem aluIdiv_error {n : Nat} (x y : BitVec n) (c : Cause) (h : aluIdiv x y = .error c) : c = .divideByZero := by
  unfold aluIdiv at h
  split at h <;> cases h
  rfl

/-- Every handler's outcome is that of a result its checks allow: well-formed where it is complete, else a fault of R241's table. Only a
well-formed `getc_` may wait instead. -/
theorem exec_checks (i : Instr) (s : State) :
    ChecksFields i.wellFormed (mayRaise i) s (exec i s) ∨
      (i.wellFormed = true ∧ i.mnemonic = .getc_ ∧ exec i s = .fault .awaitingInput) := by
  cases i with
  | mov w src dst => exact .inl (sourceToDest_checks w id src dst s)
  | neg w src dst => exact .inl (sourceToDest_checks w unaryNeg src dst s)
  | pos w src dst => exact .inl (sourceToDest_checks w unaryPos src dst s)
  | lnot w src dst => exact .inl (sourceToDest_checks w unaryLnot src dst s)
  | bnot w src dst => exact .inl (sourceToDest_checks w unaryBnot src dst s)
  | add w a b dst => exact .inl (totalOp_checks w aluAdd a b dst s)
  | sub w a b dst => exact .inl (totalOp_checks w aluSub a b dst s)
  | mul w a b dst => exact .inl (totalOp_checks w aluMul a b dst s)
  | shl w a b dst => exact .inl (totalOp_checks w aluShl a b dst s)
  | shr w a b dst => exact .inl (totalOp_checks w aluShr a b dst s)
  | sal w a b dst => exact .inl (totalOp_checks w aluSal a b dst s)
  | sar w a b dst => exact .inl (totalOp_checks w aluSar a b dst s)
  | and w a b dst => exact .inl (totalOp_checks w aluAnd a b dst s)
  | or w a b dst => exact .inl (totalOp_checks w aluOr a b dst s)
  | xor w a b dst => exact .inl (totalOp_checks w aluXor a b dst s)
  | udiv w a b dst => exact .inl (division_checks w aluUdiv a b dst s aluUdiv_error)
  | idiv w a b dst => exact .inl (division_checks w aluIdiv a b dst s aluIdiv_error)
  | sxu w src dst sel => exact .inl (extendOp_checks extendZero w src dst sel s)
  | sxi w src dst sel => exact .inl (extendOp_checks extendSign w src dst sel s)
  | jmp w cc target => exact .inl (execJmp_checks w cc target s)
  | stks w src => exact .inl (execStks_checks w src s)
  | push w src => exact .inl (execPush_checks w src s)
  | pop w dst => exact .inl (execPop_checks w dst s)
  | call w target => exact .inl (execCall_checks w target s)
  | ret w count => exact .inl (execRet_checks w count s)
  | halt w => exact .inl ⟨.error .halt, rfl, .ofNotEncoding (by simp [mayRaise]) (by decide)⟩
  | getc_ w dst => exact (execGetc_checks w dst s).imp_right fun ⟨hok, hwait⟩ => ⟨hok, rfl, hwait⟩
  | putc_ w src => exact .inl (execPutc_checks w src s)
  | ucmp w a b => exact .inl (compareOp_checks w compareLessUnsigned a b s)
  | icmp w a b => exact .inl (compareOp_checks w compareLessSigned a b s)

/-! ## Ill-formed and well-formed instructions -/

/-- Settles O23: a result the checks allow is complete only for a well-formed instruction, and only a well-formed one waits. -/
theorem illFormedInstructionsFault : Obligations.IllFormedInstructionsFault := by
  intro i s hill
  rcases exec_checks i s with ⟨r, hexec, hr⟩ | ⟨hok, -, -⟩
  · cases r with
    | ok t =>
      obtain ⟨hok, -⟩ := hr
      cases hill.symm.trans hok
    | error c => exact ⟨c, hexec⟩
  · cases hill.symm.trans hok

/-- The cause a handler records, where none was recorded before, is a fault its checks allow. -/
theorem exec_faultCause {i : Instr} {s t : State} {c : Cause} (hs : s.faultCause = none) (h : exec i s = .next t)
    (ht : t.faultCause = some c) : AllowedFault i.wellFormed (mayRaise i) c := by
  rcases exec_checks i s with ⟨r, hexec, hr⟩ | ⟨-, -, hexec⟩
  · rcases finish_next.1 (hexec.symm.trans h) with rfl | ⟨d, rfl, rfl⟩
    · obtain ⟨-, hcause⟩ := hr
      cases (ht.symm.trans hcause).trans hs
    · cases ht
      exact hr
  · cases hexec.symm.trans h

/-- Of the causes R241 gives an instruction, those that are no encoding fault. -/
theorem mayRaise_not_encodingFault {i : Instr} {c : Cause} (hc : c ∈ mayRaise i) (hne : c ∉ encodingFaults) :
    c = .memOutOfBounds ∨ (c = .divideByZero ∧ i.mnemonic ∈ [.udiv, .idiv]) ∨ (c = .halt ∧ i.mnemonic = .halt) := by
  cases c with
  | memOutOfBounds => exact .inl rfl
  | divideByZero => exact .inr (.inl ⟨rfl, by cases i <;> simp_all [mayRaise, Instr.mnemonic]⟩)
  | halt => exact .inr (.inr ⟨rfl, by cases i <;> simp_all [mayRaise, Instr.mnemonic]⟩)
  | decodeFault => exact absurd hc (by cases i <;> simp [mayRaise])
  | regOutOfBounds | invalidWriteTarget | invalidJumpCondition | invalidExtendWidth => exact absurd (by decide) hne

/-- Settles O24: the cause is one of R241's table for the instruction, and no encoding fault. -/
theorem wellFormedInstructionsRaiseNoEncodingFault : Obligations.WellFormedInstructionsRaiseNoEncodingFault := by
  intro i s t c hok hs h ht
  obtain ⟨hc, hne⟩ := exec_faultCause hs h ht
  exact mayRaise_not_encodingFault hc (hne hok)

end Sys2Proof.Machine

/-! How a step can end (R110, R121): a HALTED machine has no step, and a RUNNING one is halted by a fault alone. -/

namespace Sys2Proof.Machine

theorem step_halted {s : State} (h : s.running = false) : step s = .fault .halted := by
  simp only [step, h]

/-- The longest instruction has seven bytes (R80). -/
theorem length_le (i : Instr) : i.length ≤ 7 := by
  have := fieldCount_le i.mnemonic
  unfold Instr.length
  omega

/-- How a step leaves the run/halt status: the opcode fetch faults; a fault is raised once the cycle is counted and `pc` moved past what
was fetched; or the status is as before. -/
theorem step_status {s t : State} (h : step s = .next t) :
    (s.memSize ≤ s.pc.toNat ∧ t = s.raise .memOutOfBounds) ∨
      (∃ n c, n ≤ 7 ∧ t = (s.afterFetch n).raise c) ∨
      (t.running = s.running ∧ t.faultCause = s.faultCause) := by
  rcases (step_next h).2 with hopcode | ⟨-, n, c, hn, ht⟩ | ⟨-, i, hi⟩
  · exact .inl hopcode
  · exact .inr (.inl ⟨n, c, hn, ht⟩)
  · rcases (exec_effect hi).status with ⟨c, ht⟩ | ⟨hrun, hcause, -⟩
    · exact .inr (.inl ⟨i.length, c, length_le i, ht⟩)
    · exact .inr (.inr ⟨hrun, hcause⟩)

/-- Settles O4: a step raises a fault, which halts the machine with a cause, or leaves the status as it was. -/
theorem haltedIsTerminalAndRunningSteps : Obligations.HaltedIsTerminalAndRunningSteps := by
  refine ⟨rfl, fun _ => step_halted, fun s t hrun hcause h => ?_⟩
  rcases step_status h with ⟨-, rfl⟩ | ⟨n, c, -, rfl⟩ | ⟨hrun', hcause'⟩
  · exact .inr ⟨rfl, _, rfl⟩
  · exact .inr ⟨rfl, c, rfl⟩
  · exact .inl ⟨hrun'.trans hrun, hcause'.trans hcause⟩

/-- A write of `pc` touches the low 16 bits of `cur` alone (R26). -/
theorem setPc_onlyLow16 (s : State) (a : Word16) : OnlyLow16 [.cur] s (s.setPc a) :=
  ⟨fun r hr => Regs.get_set_ne _ _ (by simpa using hr), fun r k hk => by rw [State.getLsbD_setPc, if_neg (by omega)]⟩

theorem afterFetch_onlyLow16 (s : State) (n : Nat) : OnlyLow16 [.cur] s (s.afterFetch n) :=
  setPc_onlyLow16 s.countCycle _

/-- Settles O6: a step that ends HALTED has only raised a fault, in the state before it or in the one the fetch advance leaves. -/
theorem faultsArePrecise : Obligations.FaultsArePrecise := by
  intro s t hrun h hhalted
  rcases step_status h with ⟨hpc, rfl⟩ | ⟨n, c, hn, rfl⟩ | ⟨hrun', -⟩
  · exact ⟨.memOutOfBounds, rfl, rfl, rfl, ⟨rfl, rfl⟩, ⟨rfl, rfl, rfl, rfl⟩, rfl, ⟨fun _ _ => rfl, fun _ _ _ => rfl⟩,
      ⟨0, by omega, (BitVec.add_zero _).symm⟩, .inr ⟨rfl, rfl, rfl, hpc⟩⟩
  · exact ⟨c, rfl, rfl, rfl, ⟨rfl, rfl⟩, ⟨rfl, rfl, rfl, rfl⟩, rfl, afterFetch_onlyLow16 s n, ⟨n, hn, s.pc_afterFetch n⟩, .inl rfl⟩
  · cases (hrun'.trans hrun).symm.trans hhalted

end Sys2Proof.Machine

/-! The input stream (R37, R123): replacing it is a simulation, and so every instruction but `getc_` does the same with another one. -/

namespace Sys2Proof.Machine

/-- The state with another input stream. -/
def State.withInput (s : State) (xs : List Byte) (ended : Bool) (n : Nat) : State :=
  { s with input := xs, inputEnded := ended, inPos := n }

theorem withInput_simulation (xs : List Byte) (ended : Bool) (n : Nat) : Simulation fun s t => t = s.withInput xs ended n where
  regs h := by subst h; rfl
  mem h := by subst h; rfl
  memSize h := by subst h; rfl
  flags h := by subst h; exact ⟨rfl, rfl⟩
  raise h _ := by subst h; rfl
  regWrite h _ _ _ := by subst h; rfl
  putBytes h _ _ _ := by subst h; rfl
  setFlags h _ _ := by subst h; rfl
  emit h _ := by subst h; rfl
  countCycle h := by subst h; rfl

/-- Settles O10: of a simulation, only `getc_` needs the host's answers to be alike. -/
theorem onlyGetcDependsOnInput : Obligations.OnlyGetcDependsOnInput := by
  intro i s xs ended n hi
  have hrel := (withInput_simulation xs ended n).exec_rel (s := s) rfl i fun hgetc => absurd hgetc hi
  show exec i (s.withInput xs ended n) = _
  generalize exec i s = o, exec i (s.withInput xs ended n) = o' at hrel
  cases hrel with
  | next ht => rw [ht]; rfl
  | fault f => rfl

end Sys2Proof.Machine

/-! The operand resolver (R115 to R120), by the flags of a field, and a read after a write of one operand. -/

namespace Sys2Proof

/-! ## The operand of a field, by its flags (R84, R86) -/

theorem ofField_imm {f : Word16} (hR : f.getLsbD 15 = false) (hM : f.getLsbD 14 = false) :
    Operand.ofField f = .imm (f.extractLsb' 0 14) := by
  simp only [Operand.ofField, hR, hM]

theorem ofField_reg {f : Word16} (hR : f.getLsbD 15 = true) (hM : f.getLsbD 14 = false) :
    Operand.ofField f = .reg (f.extractLsb' 0 14) := by
  simp only [Operand.ofField, hR, hM]

theorem ofField_mem {f : Word16} (hR : f.getLsbD 15 = false) (hM : f.getLsbD 14 = true) :
    Operand.ofField f = .mem (f.extractLsb' 0 14) := by
  simp only [Operand.ofField, hR, hM]

theorem ofField_ind {f : Word16} (hR : f.getLsbD 15 = true) (hM : f.getLsbD 14 = true) :
    Operand.ofField f = .ind (f.extractLsb' 0 14) := by
  simp only [Operand.ofField, hR, hM]

theorem payload_toNat (f : Word16) : (f.extractLsb' 0 14).toNat = f.toNat % 2 ^ 14 := by
  rw [BitVec.extractLsb'_toNat, Nat.shiftRight_zero]

end Sys2Proof

namespace Sys2Proof.Machine

/-! ## Registers and memory locations -/

/-- A payload that is a register's number names that register (R21). -/
theorem resolveReg_regNumber {p : BitVec 14} {r : Reg} (h : p.toNat = regNumber r) : resolveReg p = .ok r := by
  rw [resolveReg_ok, regOfIndex, h]
  cases r <;> rfl

/-- A payload above 5 names none (R85). -/
theorem resolveReg_above {p : BitVec 14} (h : 5 < p.toNat) : resolveReg p = .error .regOutOfBounds :=
  resolveReg_error.2 ⟨h, rfl⟩

theorem locAt_eq_ite (s : State) (a : Nat) (w : Width) :
    s.locAt a w = if a + w.bytes ≤ s.memSize then .ok (.mem a) else .error .memOutOfBounds := by
  simp only [State.locAt, State.inBounds, decide_eq_true_eq]

/-! ## The addressing modes -/

/-- Settles O28: the flags of the field choose the mode; a register mode first looks the payload up. -/
theorem resolveReadByMode : Obligations.ResolveReadByMode := by
  intro s f w
  rw [← payload_toNat]
  refine ⟨fun hR hp => ?_, fun r hR hp hM => ?_, fun r hR hp hM => ?_, fun hR hM => ?_, fun hR hM => ?_⟩
  · cases hM : f.getLsbD 14 with
    | false => simp only [ofField_reg hR hM, resolveRead, resolveReg_above hp]
    | true => simp only [ofField_ind hR hM, resolveRead, resolveReg_above hp]
  · simp only [ofField_reg hR hM, resolveRead, resolveReg_regNumber hp]
  · simp only [ofField_ind hR hM, resolveRead, resolveReg_regNumber hp]
  · rw [ofField_mem hR hM]; rfl
  · rw [ofField_imm hR hM]
    exact ⟨_, rfl, BitVec.toNat_setWidth ..⟩

/-- Settles O29: as for a read, the flags choose the mode, and the memory modes check their bounds in `locAt`. -/
theorem resolveLocByMode : Obligations.ResolveLocByMode := by
  intro s f w
  rw [← payload_toNat]
  refine ⟨fun hR hp => ?_, fun r hR hp hM => ?_, fun r hR hp hM => ?_, fun hR hM => ?_, fun hR hM => ?_⟩
  · cases hM : f.getLsbD 14 with
    | false => simp only [ofField_reg hR hM, resolveLoc, resolveReg_above hp]
    | true => simp only [ofField_ind hR hM, resolveLoc, resolveReg_above hp]
  · simp only [ofField_reg hR hM, resolveLoc, resolveReg_regNumber hp]
  · simp only [ofField_ind hR hM, resolveLoc, resolveReg_regNumber hp, locAt_eq_ite]
  · rw [ofField_mem hR hM]; exact locAt_eq_ite s _ w
  · rw [ofField_imm hR hM]; rfl

/-! ## A read after a write -/

/-- What is stored inside memory is read back (R50). -/
theorem memRead_putBytes {s : State} {a : Nat} {w : Width} (h : a + w.bytes ≤ s.memSize) (v : BitVec w.bits) :
    (s.putBytes a w v).memRead a w = .ok v :=
  State.memRead_ok.2 ⟨h, (Memory.readLE_writeLE s.mem a w.bytes v).symm⟩

/-- Settles O30: a store in memory leaves the registers, so an indirect operand points where it did. -/
theorem resolverRoundTrip : Obligations.ResolverRoundTrip := by
  intro s t o w v h
  obtain ⟨l, hl, rfl⟩ := resolveWrite_ok.1 h
  cases o with
  | imm p => cases hl
  | reg p =>
    simp only [resolveLoc] at hl
    split at hl
    · cases hl
    · rename_i r hr
      cases hl
      simp only [resolveRead, hr, State.store, State.regRead_regWrite_self]
  | mem p =>
    obtain ⟨hin, rfl⟩ := State.locAt_ok.1 hl
    exact memRead_putBytes hin v
  | ind p =>
    simp only [resolveLoc] at hl
    split at hl
    · cases hl
    · rename_i r hr
      obtain ⟨hin, rfl⟩ := State.locAt_ok.1 hl
      simp only [resolveRead, hr]
      exact memRead_putBytes hin v

end Sys2Proof.Machine

/-! The fetch stage (R111, R113): the fields of the instruction at `pc`, one after the other, up to the first that cannot be fetched. -/

namespace Sys2Proof.Machine

/-! ## The opcode byte -/

theorem step_of_fetch_ok {s t : State} {i : Instr} (hrun : s.running = true) (h : fetch s = .ok (i, t)) : step s = exec i t := by
  simp only [step, hrun, h]

theorem step_of_fetch_error {s t : State} (hrun : s.running = true) (h : fetch s = .error t) : step s = .next t := by
  simp only [step, hrun, h]

/-- Settles O13: of the ways the fetch stage can end, only the fault on the opcode byte has `pc` outside memory. -/
theorem opcodeFetchOutOfBounds : Obligations.OpcodeFetchOutOfBounds := by
  intro s hrun hpc
  rcases fetch_cases s with ⟨-, hfetch⟩ | ⟨hin, -⟩ | ⟨hin, -⟩
  · exact step_of_fetch_error hrun hfetch
  · omega
  · omega

theorem codeAt_zero (s : State) : codeAt s 0 = s.mem.read s.pc.toNat := by simp [codeAt]

/-- The opcode bytes of a mnemonic are those with its index (R81, R92). -/
theorem mnemonicOfByte_of_index {b : Byte} {m : Mnemonic} (h : b.toNat % 64 = m.index) : mnemonicOfByte b = some m := by
  rw [mnemonicOfByte, opcodeIndex_toNat, h, opcodeMap_index]

section
variable {s u : State} {m : Mnemonic} {fs : List Word16}

/-- Where the opcode byte names a mnemonic and all its fields are fetched, the fetch stage gives their instruction. -/
theorem fetch_of_fields_ok (hpc : s.pc.toNat < s.memSize) (hm : mnemonicOfByte (codeAt s 0) = some m)
    (h : fetchFields m.fieldCount (s.afterFetch 1) = .ok (fs, u)) :
    fetch s = .ok (assemble m (widthOfByte (codeAt s 0)) fs, u) := by
  have hin : s.inBounds s.pc.toNat 1 = true := decide_eq_true hpc
  rw [codeAt_zero] at hm ⊢
  simp only [fetch, hin, if_true, hm, h]

/-- Where a field of the mnemonic is not fetched, the fetch stage leaves the state of that fault. -/
theorem fetch_of_fields_error (hpc : s.pc.toNat < s.memSize) (hm : mnemonicOfByte (codeAt s 0) = some m)
    (h : fetchFields m.fieldCount (s.afterFetch 1) = .error u) : fetch s = .error u := by
  have hin : s.inBounds s.pc.toNat 1 = true := decide_eq_true hpc
  rw [codeAt_zero] at hm
  simp only [fetch, hin, if_true, hm, h]

end

/-! ## One field -/

/-- A field's value, its high byte first (R54). -/
theorem fieldOfBytes_toNat (hi lo : Byte) : (fieldOfBytes hi lo).toNat = 256 * hi.toNat + lo.toNat := by
  rw [fieldOfBytes, BitVec.toNat_append, ← Nat.shiftLeft_add_eq_or_of_lt lo.isLt, Nat.shiftLeft_eq, Nat.mul_comm]

/-- Settles O15: a field inside memory is its two bytes, and its fetch only writes `pc`. -/
theorem fetchFieldIsBigEndian : Obligations.FetchFieldIsBigEndian := by
  refine fun s => ⟨fetchField_none.2, fun hin => ⟨_, _, fetchField_some.2 ⟨hin, rfl, rfl⟩, fieldOfBytes_toNat _ _, ?_,
    setPc_onlyLow16 s _, fun _ => rfl, ⟨rfl, rfl⟩, ⟨rfl, rfl, rfl, rfl, rfl⟩, ⟨rfl, rfl, rfl, rfl⟩⟩⟩
  rw [State.pc_setPc, BitVec.toNat_add]
  rfl

/-- Moving `pc` on after a fetch advance is a longer one. -/
theorem setPc_afterFetch (s : State) (n k : Nat) :
    (s.afterFetch n).setPc ((s.afterFetch n).pc + BitVec.ofNat 16 k) = s.afterFetch (n + k) := by
  simp only [State.afterFetch, State.pc_setPc, State.setPc_setPc, BitVec.add_assoc, ← BitVec.ofNat_add]

/-- Field `j` is fetched where it lies inside memory, after the opcode byte and the fields before it. -/
theorem fetchField_readable {s : State} {j : Nat} (h : FieldReadable s j) :
    fetchField (s.afterFetch (1 + 2 * j)) =
      some (fieldOfBytes (codeAt s (1 + 2 * j)) (s.mem.read ((s.pc + BitVec.ofNat 16 (1 + 2 * j)).toNat + 1)),
        s.afterFetch (1 + 2 * (j + 1))) :=
  fetchField_some.2 ⟨by rwa [State.pc_afterFetch], by rw [State.pc_afterFetch]; rfl, (setPc_afterFetch s (1 + 2 * j) 2).symm⟩

theorem fetchField_unreadable {s : State} {j : Nat} (h : ¬FieldReadable s j) : fetchField (s.afterFetch (1 + 2 * j)) = none :=
  fetchField_none.2 (by rw [State.pc_afterFetch]; exact Nat.lt_of_not_le h)

/-! ## The fields up to the first that is not inside memory -/

/-- The fields from `i` on are fetched up to the first, `j`, that does not lie inside memory, and `pc` stays there. -/
theorem fetchFields_unreadable {s : State} {k i j : Nat} (hij : i ≤ j) (hjk : j < i + k)
    (hbefore : ∀ l, i ≤ l → l < j → FieldReadable s l) (hj : ¬FieldReadable s j) :
    fetchFields k (s.afterFetch (1 + 2 * i)) = .error ((s.afterFetch (1 + 2 * j)).raise .memOutOfBounds) := by
  induction k generalizing i with
  | zero => omega
  | succ k ih =>
    rcases hij.eq_or_lt with rfl | hlt
    · simp only [fetchFields, fetchField_unreadable hj]
    · have hrest := ih (i := i + 1) hlt (by omega) fun l hl => hbefore l (by omega)
      simp only [fetchFields, fetchField_readable (hbefore i le_rfl hlt), hrest]

/-- Settles O16: the fetch of the fields stops at field `j`, whose fault the step takes. -/
theorem fieldFetchFaultKeepsTheAdvances : Obligations.FieldFetchFaultKeepsTheAdvances := by
  intro s m j hrun hpc hm hj hbefore hunread
  have hfields := fetchFields_unreadable (i := 0) (k := m.fieldCount) (Nat.zero_le j) (by omega) (fun l _ => hbefore l) hunread
  exact step_of_fetch_error hrun (fetch_of_fields_error hpc (mnemonicOfByte_of_index hm) hfields)

/-! ## The decoded instruction -/

/-- In a capacity R6 allows, the second byte of a field inside memory does not wrap round to address 0. -/
theorem codeAt_lowByte {s : State} {j : Nat} (hcap : s.CapacityOk) (h : FieldReadable s j) :
    codeAt s (1 + 2 * j + 1) = s.mem.read ((s.pc + BitVec.ofNat 16 (1 + 2 * j)).toNat + 1) := by
  have hmax : s.memSize ≤ 65536 := hcap.2
  have hle := Nat.le_trans h hmax
  rw [codeAt, BitVec.ofNat_add, ← BitVec.add_assoc, BitVec.toNat_add, BitVec.toNat_ofNat, Nat.mod_eq_of_lt (by omega)]

/-- The fields fetched from `j` on, where they lie inside memory, are those the decoder takes from the same bytes. -/
theorem fetchFields_of_takeFields {s : State} {k j n : Nat} {fs : List Word16} {rest : List Byte} (hcap : s.CapacityOk)
    (h : takeFields k ((List.range' (1 + 2 * j) n).map (codeAt s)) = some (fs, rest))
    (hread : ∀ l, j ≤ l → l < j + k → FieldReadable s l) :
    fetchFields k (s.afterFetch (1 + 2 * j)) = .ok (fs, s.afterFetch (1 + 2 * (j + k))) := by
  induction k generalizing j n fs with
  | zero => cases h; rfl
  | succ k ih =>
    match n with
    | 0 | 1 => cases h
    | n + 2 =>
      have hj := hread j le_rfl (by omega)
      simp only [List.range'_succ, List.map_cons, takeFields] at h
      split at h
      · rename_i gs r htake
        cases h
        have hrest := ih (j := j + 1) htake fun l hl hlk => hread l (by omega) (by omega)
        have hend : j + 1 + k = j + (k + 1) := by omega
        simp only [fetchFields, fetchField_readable hj, hrest, codeAt_lowByte hcap hj, hend]
      · cases h

/-- Settles O12: the decoder's opcode byte is the one the fetch stage reads, and so are its fields. -/
theorem stepRunsTheDecodedInstruction : Obligations.StepRunsTheDecodedInstruction := by
  intro s i rest hcap hrun hpc hdec hread
  obtain ⟨b, bs, m, fs, hbytes, hm, htake, rfl⟩ := decode_ok.1 hdec
  obtain ⟨rfl, rfl⟩ : codeAt s 0 = b ∧ (List.range' (1 + 2 * 0) 6).map (codeAt s) = bs := List.cons.inj hbytes
  rw [mnemonic_assemble] at hread
  have hfields := fetchFields_of_takeFields hcap htake fun l _ hl => hread l (by omega)
  rw [Nat.zero_add] at hfields
  rw [Instr.length, mnemonic_assemble]
  exact step_of_fetch_ok hrun (fetch_of_fields_ok hpc hm hfields)

end Sys2Proof.Machine

/-! The encoding of an instruction as the spec writes it (R81, R82, R92), and the source-to-destination rule (R140, R170). -/

namespace Sys2Proof

/-- A width is two to the power of its code, in bytes (R82). -/
theorem bytes_eq_two_pow (w : Width) : w.bytes = 2 ^ (codeOfWidth w).toNat := by
  cases w <;> rfl

/-- An opcode byte is the index in bits 5:0 and the width code above it (R81). -/
theorem opcodeByte_eq_ofNat (m : Mnemonic) (w : Width) :
    opcodeByte m w = BitVec.ofNat 8 (m.index + 0x40 * (codeOfWidth w).toNat) := by
  have hm := index_lt m
  have hw := (codeOfWidth w).isLt
  refine BitVec.eq_of_toNat_eq ?_
  rw [opcodeByte, BitVec.toNat_append, ← Nat.shiftLeft_add_eq_or_of_lt (BitVec.isLt _), Nat.shiftLeft_eq, BitVec.toNat_ofNat,
    BitVec.toNat_ofNat]
  omega

end Sys2Proof

namespace Sys2Proof.Machine

/-- Every instruction has the encoding of its mnemonic's index and its own fields. -/
theorem hasEncoding (i : Instr) : HasEncoding i i.mnemonic.index i.fields :=
  ⟨(codeOfWidth i.width).toNat, bytes_eq_two_pow i.width, by rw [encode, opcodeByte_eq_ofNat]⟩

section
variable {w : Width} {op : BitVec w.bits → BitVec w.bits} {src dst : Operand} {s : State} {a : BitVec w.bits}

/-- The source's fault is raised, whatever the destination. -/
theorem sourceToDest_of_source_error {c : Cause} (h : resolveRead s src w = .error c) :
    sourceToDest w op src dst s = .next (s.raise c) := by
  simp only [sourceToDest, h, finish]

/-- Where the source resolves, the destination's fault is raised. -/
theorem sourceToDest_of_loc_error {c : Cause} (ha : resolveRead s src w = .ok a) (hl : resolveLoc s dst w = .error c) :
    sourceToDest w op src dst s = .next (s.raise c) := by
  simp only [sourceToDest, ha, resolveWrite_error.2 hl, finish]

/-- Where both resolve, the result is stored at the destination. -/
theorem sourceToDest_of_ok {l : Loc} (ha : resolveRead s src w = .ok a) (hl : resolveLoc s dst w = .ok l) :
    sourceToDest w op src dst s = .next (s.store l w (op a)) := by
  simp only [sourceToDest, ha, resolveWrite_ok.2 ⟨l, hl, rfl⟩, finish]

end

/-- An instruction whose handler is the shared shape, with an operator that `R` describes, follows the rule. -/
theorem sourceToDestRule_of_exec {mk : Width → Operand → Operand → Instr} {index : Nat}
    {R : (w : Width) → BitVec w.bits → BitVec w.bits → Prop} (op : (w : Width) → BitVec w.bits → BitVec w.bits)
    (henc : ∀ w src dst, HasEncoding (mk w src dst) index [src.toField, dst.toField])
    (hexec : ∀ w src dst s, exec (mk w src dst) s = sourceToDest w (op w) src dst s) (hop : ∀ w a, R w a (op w a)) :
    SourceToDestRule mk index R := by
  intro w src dst s
  rw [hexec]
  refine ⟨henc w src dst, fun c hc => ?_, fun a c ha hc => ?_, fun a l ha hl => ?_⟩
  · exact sourceToDest_of_source_error hc
  · exact sourceToDest_of_loc_error ha hc
  · exact ⟨op w a, _, hop w a, sourceToDest_of_ok ha hl, store_storedOnly s l w (op w a)⟩

/-- Settles O31: `mov` is the shared shape with the identity as its operator. -/
theorem movCopiesWidthBytes : Obligations.MovCopiesWidthBytes :=
  sourceToDestRule_of_exec (fun _ => id) (fun w src dst => hasEncoding (.mov w src dst)) (fun _ _ _ _ => rfl) fun _ _ => rfl

end Sys2Proof.Machine

/-! The binary instructions (R150 to R165): the shape they share, case by case, and what each operator gives. -/

namespace Sys2Proof.Machine

/-! ## The shared shape (R150) -/

section
variable {w : Width} {op : BitVec w.bits → BitVec w.bits → Except Cause (BitVec w.bits)} {a b dst : Operand} {s : State}
  {x y r : BitVec w.bits} {c : Cause}

/-- The first source's fault is raised, whatever the other operands. -/
theorem binaryOp_of_first_error (hx : resolveRead s a w = .error c) : binaryOp w op a b dst s = .next (s.raise c) := by
  simp only [binaryOp, hx, finish]

/-- Where the first source resolves, the second one's fault is raised. -/
theorem binaryOp_of_second_error (hx : resolveRead s a w = .ok x) (hy : resolveRead s b w = .error c) :
    binaryOp w op a b dst s = .next (s.raise c) := by
  simp only [binaryOp, hx, hy, finish]

/-- The operator's own fault is raised, whatever the destination. -/
theorem binaryOp_of_op_error (hx : resolveRead s a w = .ok x) (hy : resolveRead s b w = .ok y) (hop : op x y = .error c) :
    binaryOp w op a b dst s = .next (s.raise c) := by
  simp only [binaryOp, hx, hy, hop, finish]

/-- Where the operator gives a result, the destination's fault is raised. -/
theorem binaryOp_of_loc_error (hx : resolveRead s a w = .ok x) (hy : resolveRead s b w = .ok y) (hop : op x y = .ok r)
    (hl : resolveLoc s dst w = .error c) : binaryOp w op a b dst s = .next (s.raise c) := by
  simp only [binaryOp, hx, hy, hop, resolveWrite_error.2 hl, finish]

/-- Where all resolve, the result is stored at the destination. -/
theorem binaryOp_of_ok {l : Loc} (hx : resolveRead s a w = .ok x) (hy : resolveRead s b w = .ok y) (hop : op x y = .ok r)
    (hl : resolveLoc s dst w = .ok l) : binaryOp w op a b dst s = .next (s.store l w r) := by
  simp only [binaryOp, hx, hy, hop, resolveWrite_ok.2 ⟨l, hl, rfl⟩, finish]

end

section
variable {mk : Width → Operand → Operand → Operand → Instr} {index : Nat}
  {R : (w : Width) → BitVec w.bits → BitVec w.bits → BitVec w.bits → Prop}

/-- An instruction whose handler is the shared shape, with an operator that never faults and that `R` describes, follows the rule. -/
theorem binaryRule_of_exec (op : (w : Width) → BitVec w.bits → BitVec w.bits → BitVec w.bits)
    (henc : ∀ w a b dst, HasEncoding (mk w a b dst) index [a.toField, b.toField, dst.toField])
    (hexec : ∀ w a b dst s, exec (mk w a b dst) s = binaryOp w (fun x y => .ok (op w x y)) a b dst s)
    (hop : ∀ w x y, R w x y (op w x y)) : BinaryRule mk index R := by
  intro w a b dst s
  rw [hexec]
  refine ⟨henc w a b dst, fun c hc => ?_, fun x c hx hc => ?_, fun x y c hx hy hc => ?_, fun x y l hx hy hl => ?_⟩
  · exact binaryOp_of_first_error hc
  · exact binaryOp_of_second_error hx hc
  · exact binaryOp_of_loc_error hx hy rfl hc
  · exact ⟨op w x y, _, hop w x y, binaryOp_of_ok hx hy rfl hl, store_storedOnly s l w (op w x y)⟩

/-- An instruction whose handler is the shared shape, with an operator that faults on a zero divisor and else gives what `R` describes,
follows the rule of a division. -/
theorem divisionRule_of_exec (op : (w : Width) → BitVec w.bits → BitVec w.bits → Except Cause (BitVec w.bits))
    (henc : ∀ w a b dst, HasEncoding (mk w a b dst) index [a.toField, b.toField, dst.toField])
    (hexec : ∀ w a b dst s, exec (mk w a b dst) s = binaryOp w (op w) a b dst s)
    (hzero : ∀ w x y, y.toNat = 0 → op w x y = .error .divideByZero)
    (hop : ∀ w x y, y.toNat ≠ 0 → ∃ r, op w x y = .ok r ∧ R w x y r) : DivisionRule mk index R := by
  intro w a b dst s
  rw [hexec]
  refine ⟨henc w a b dst, fun c hc => ?_, fun x c hx hc => ?_, fun x y hx hy h0 => ?_, fun x y c hx hy h0 hc => ?_,
    fun x y l hx hy h0 hl => ?_⟩
  · exact binaryOp_of_first_error hc
  · exact binaryOp_of_second_error hx hc
  · exact binaryOp_of_op_error hx hy (hzero w x y h0)
  · obtain ⟨r, hr, -⟩ := hop w x y h0
    exact binaryOp_of_loc_error hx hy hr hc
  · obtain ⟨r, hr, hR⟩ := hop w x y h0
    exact ⟨r, _, hR, binaryOp_of_ok hx hy hr hl, store_storedOnly s l w r⟩

end

/-! ## The operators -/

section
variable {n : Nat}

theorem toNat_aluAdd (a b : BitVec n) : (aluAdd a b).toNat = (a.toNat + b.toNat) % 2 ^ n := BitVec.toNat_add a b

theorem toNat_aluSub (a b : BitVec n) : (aluSub a b).toNat = (a.toNat + 2 ^ n - b.toNat) % 2 ^ n := by
  rw [aluSub, BitVec.toNat_sub', Nat.add_sub_assoc b.isLt.le]

theorem toNat_aluMul (a b : BitVec n) : (aluMul a b).toNat = a.toNat * b.toNat % 2 ^ n := BitVec.toNat_mul a b

theorem aluUdiv_of_zero {b : BitVec n} (hb : b.toNat = 0) (a : BitVec n) : aluUdiv a b = .error .divideByZero :=
  if_pos (BitVec.eq_of_toNat_eq hb)

theorem aluUdiv_of_ne_zero {b : BitVec n} (hb : b.toNat ≠ 0) (a : BitVec n) : aluUdiv a b = .ok (a / b) :=
  if_neg fun h => hb (by rw [h, BitVec.toNat_zero])

theorem aluIdiv_of_zero {b : BitVec n} (hb : b.toNat = 0) (a : BitVec n) : aluIdiv a b = .error .divideByZero :=
  if_pos (BitVec.eq_of_toNat_eq hb)

theorem aluIdiv_of_ne_zero {b : BitVec n} (hb : b.toNat ≠ 0) (a : BitVec n) :
    aluIdiv a b = .ok (BitVec.ofInt n (a.toInt.tdiv b.toInt)) :=
  if_neg fun h => hb (by rw [h, BitVec.toNat_zero])

/-- A quotient rounded toward zero is 0 or has the sign of the exact one. -/
theorem tdiv_mul_nonneg (a b : Int) : 0 ≤ a.tdiv b * (a * b) := by
  rw [← Int.sign_nonneg_iff, Int.sign_mul, Int.sign_mul, Int.sign_tdiv]
  split
  · rw [Int.zero_mul]
  · exact mul_self_nonneg _

/-- The one quotient that does not fit wraps to the dividend (D17). -/
theorem ofInt_tdiv_neg_one {a : BitVec n} (ha : a.toInt = -2 ^ (n - 1)) (hn : 0 < n) : BitVec.ofInt n (a.toInt.tdiv (-1)) = a := by
  have hmin : a = BitVec.intMin n := BitVec.eq_of_toInt_eq (by rw [ha, BitVec.toInt_intMin_of_pos hn])
  rw [Int.tdiv_neg, Int.tdiv_one, BitVec.ofInt_neg, BitVec.ofInt_toInt, hmin, BitVec.neg_intMin]

theorem toNat_aluShl (a b : BitVec n) : (aluShl a b).toNat = a.toNat * 2 ^ (b.toNat % n) % 2 ^ n := by
  rw [aluShl, BitVec.toNat_shiftLeft, Nat.shiftLeft_eq, shiftCount]

theorem toNat_aluShr (a b : BitVec n) : (aluShr a b).toNat = a.toNat / 2 ^ (b.toNat % n) := by
  rw [aluShr, BitVec.toNat_ushiftRight, Nat.shiftRight_eq_div_pow, shiftCount]

/-- The two left shifts are one operator (R158). -/
theorem toNat_aluSal (a b : BitVec n) : (aluSal a b).toNat = a.toNat * 2 ^ (b.toNat % n) % 2 ^ n := toNat_aluShl a b

theorem toInt_aluSar (a b : BitVec n) : (aluSar a b).toInt = a.toInt / 2 ^ (b.toNat % n) := by
  rw [aluSar, BitVec.toInt_sshiftRight, Int.shiftRight_eq_div_pow, shiftCount, Nat.cast_pow, Nat.cast_ofNat]

theorem getLsbD_aluAnd (a b : BitVec n) (k : Nat) : (aluAnd a b).getLsbD k = (a.getLsbD k && b.getLsbD k) := BitVec.getLsbD_and

theorem getLsbD_aluOr (a b : BitVec n) (k : Nat) : (aluOr a b).getLsbD k = (a.getLsbD k || b.getLsbD k) := BitVec.getLsbD_or

theorem getLsbD_aluXor (a b : BitVec n) (k : Nat) : (aluXor a b).getLsbD k = (a.getLsbD k != b.getLsbD k) := BitVec.getLsbD_xor

end

/-! ## The instructions -/

/-- Settles O32: each is the shared shape with an operator that cannot fault. -/
theorem addSubMulWrap : Obligations.AddSubMulWrap := by
  refine ⟨?_, ?_, ?_⟩
  · exact binaryRule_of_exec (fun _ => aluAdd) (fun w a b dst => hasEncoding (.add w a b dst)) (fun _ _ _ _ _ => rfl)
      fun _ => toNat_aluAdd
  · exact binaryRule_of_exec (fun _ => aluSub) (fun w a b dst => hasEncoding (.sub w a b dst)) (fun _ _ _ _ _ => rfl)
      fun _ => toNat_aluSub
  · exact binaryRule_of_exec (fun _ => aluMul) (fun w a b dst => hasEncoding (.mul w a b dst)) (fun _ _ _ _ _ => rfl)
      fun _ => toNat_aluMul

/-- Settles O33: the operator faults on a zero divisor, and so before the destination is resolved. -/
theorem udivIsFloorAndFaultsOnZero : Obligations.UdivIsFloorAndFaultsOnZero :=
  divisionRule_of_exec (fun _ => aluUdiv) (fun w a b dst => hasEncoding (.udiv w a b dst)) (fun _ _ _ _ _ => rfl)
    (fun _ x _ h0 => aluUdiv_of_zero h0 x) fun _ x _ h0 => ⟨_, aluUdiv_of_ne_zero h0 x, BitVec.toNat_udiv⟩

/-- Settles O34: the exact quotient truncated toward zero, wrapped to the width. -/
theorem idivRoundsTowardZeroAndFaultsOnZero : Obligations.IdivRoundsTowardZeroAndFaultsOnZero := by
  refine divisionRule_of_exec (fun _ => aluIdiv) (fun w a b dst => hasEncoding (.idiv w a b dst)) (fun _ _ _ _ _ => rfl)
    (fun _ x _ h0 => aluIdiv_of_zero h0 x) fun w x y h0 => ⟨_, aluIdiv_of_ne_zero h0 x, ?_, fun hx hy => ?_⟩
  · exact ⟨x.toInt.tdiv y.toInt, Int.natAbs_tdiv _ _, tdiv_mul_nonneg _ _, rfl⟩
  · have hbits : 0 < w.bits := Nat.mul_pos (by decide) (width_bytes_pos w)
    rw [hy, ofInt_tdiv_neg_one hx hbits]

/-- Settles O35: the count is reduced by the operators themselves, and `sal` is `shl`. -/
theorem shiftsByCountModuloWidth : Obligations.ShiftsByCountModuloWidth := by
  refine ⟨?_, ?_, ?_, ?_⟩
  · exact binaryRule_of_exec (fun _ => aluShl) (fun w a b dst => hasEncoding (.shl w a b dst)) (fun _ _ _ _ _ => rfl)
      fun _ => toNat_aluShl
  · exact binaryRule_of_exec (fun _ => aluShr) (fun w a b dst => hasEncoding (.shr w a b dst)) (fun _ _ _ _ _ => rfl)
      fun _ => toNat_aluShr
  · exact binaryRule_of_exec (fun _ => aluSal) (fun w a b dst => hasEncoding (.sal w a b dst)) (fun _ _ _ _ _ => rfl)
      fun _ => toNat_aluSal
  · exact binaryRule_of_exec (fun _ => aluSar) (fun w a b dst => hasEncoding (.sar w a b dst)) (fun _ _ _ _ _ => rfl)
      fun _ => toInt_aluSar

/-- Settles O36: each is the shared shape with the operator that works on every bit alone. -/
theorem andOrXorBitByBit : Obligations.AndOrXorBitByBit := by
  refine ⟨?_, ?_, ?_⟩
  · exact binaryRule_of_exec (fun _ => aluAnd) (fun w a b dst => hasEncoding (.and w a b dst)) (fun _ _ _ _ _ => rfl)
      fun _ x y k _ => getLsbD_aluAnd x y k
  · exact binaryRule_of_exec (fun _ => aluOr) (fun w a b dst => hasEncoding (.or w a b dst)) (fun _ _ _ _ _ => rfl)
      fun _ x y k _ => getLsbD_aluOr x y k
  · exact binaryRule_of_exec (fun _ => aluXor) (fun w a b dst => hasEncoding (.xor w a b dst)) (fun _ _ _ _ _ => rfl)
      fun _ x y k _ => getLsbD_aluXor x y k

end Sys2Proof.Machine


/-! The unary instructions (R170 to R174): what each operator gives. -/

namespace Sys2Proof.Machine

/-! ## The operators -/

section
variable {n : Nat}

theorem toNat_unaryNeg (a : BitVec n) : (unaryNeg a).toNat = (2 ^ n - a.toNat) % 2 ^ n := BitVec.toNat_neg a

theorem unaryPos_eq (a : BitVec n) : unaryPos a = a := rfl

/-- A word of no bits has no 1, so the width is positive. -/
theorem toNat_unaryLnot (hn : 0 < n) (a : BitVec n) : (unaryLnot a).toNat = if a.toNat = 0 then 1 else 0 := by
  have hzero : a = 0#n ↔ a.toNat = 0 := by rw [BitVec.toNat_eq, BitVec.toNat_zero]
  rw [unaryLnot, apply_ite BitVec.toNat, BitVec.toNat_zero, BitVec.toNat_one hn]
  simp only [hzero]

theorem getLsbD_unaryBnot {k : Nat} (hk : k < n) (a : BitVec n) : (unaryBnot a).getLsbD k = !a.getLsbD k := by
  rw [unaryBnot, BitVec.getLsbD_not, decide_eq_true hk, Bool.true_and]

end

/-! ## The instructions -/

/-- Settles O37: each is the shape of `mov` with its own operator. -/
theorem unaryOperations : Obligations.UnaryOperations := by
  refine ⟨?_, ?_, ?_, ?_⟩
  · exact sourceToDestRule_of_exec (fun _ => unaryNeg) (fun w src dst => hasEncoding (.neg w src dst)) (fun _ _ _ _ => rfl)
      fun _ => toNat_unaryNeg
  · exact sourceToDestRule_of_exec (fun _ => unaryPos) (fun w src dst => hasEncoding (.pos w src dst)) (fun _ _ _ _ => rfl)
      fun _ => unaryPos_eq
  · exact sourceToDestRule_of_exec (fun _ => unaryLnot) (fun w src dst => hasEncoding (.lnot w src dst)) (fun _ _ _ _ => rfl)
      fun w => toNat_unaryLnot (Nat.mul_pos (by decide) (width_bytes_pos w))
  · exact sourceToDestRule_of_exec (fun _ => unaryBnot) (fun w src dst => hasEncoding (.bnot w src dst)) (fun _ _ _ _ => rfl)
      fun _ a _ hk => getLsbD_unaryBnot hk a

end Sys2Proof.Machine

/-! The extends (R180 to R182): the target width of a selector, the shape they share, case by case, and what each operator gives. -/

namespace Sys2Proof.Machine

/-! ## The selector (R180) -/

theorem targetWidth_above {sel : Word16} (h : 3 < sel.toNat) : targetWidth sel = none :=
  if_neg (Nat.not_le_of_lt h)

/-- The target width in bytes is two to the power of the selector, as it is of a width code (D13). -/
theorem targetWidth_of_bytes {sel : Word16} {tw : Width} (h : tw.bytes = 2 ^ sel.toNat) : targetWidth sel = some tw := by
  have hsel : sel.toNat = (codeOfWidth tw).toNat :=
    (Nat.pow_right_inj (by decide)).1 (h.symm.trans (bytes_eq_two_pow tw))
  have hlt : sel.toNat < 4 := hsel ▸ (codeOfWidth tw).isLt
  have hcode : sel.extractLsb' 0 2 = codeOfWidth tw := by
    refine BitVec.eq_of_toNat_eq ?_
    rw [BitVec.extractLsb'_toNat, Nat.shiftRight_zero, Nat.mod_eq_of_lt hlt, hsel]
  rw [targetWidth, if_pos (Nat.le_of_lt_succ hlt), hcode, widthOfCode_codeOfWidth]

/-! ## The shared shape (R180) -/

section
variable {ext : (w tw : Width) → BitVec w.bits → BitVec tw.bits} {w tw : Width} {src dst : Operand} {sel : Word16} {s : State}
  {a : BitVec w.bits} {c : Cause}

/-- A selector with no target width faults, whatever the operands. -/
theorem extendOp_of_selector_none (htw : targetWidth sel = none) :
    extendOp ext w src dst sel s = .next (s.raise .invalidExtendWidth) := by
  simp only [extendOp, htw, finish]

/-- Where the selector has a target width, the source's fault is raised, whatever the destination. -/
theorem extendOp_of_source_error (htw : targetWidth sel = some tw) (h : resolveRead s src w = .error c) :
    extendOp ext w src dst sel s = .next (s.raise c) := by
  simp only [extendOp, htw, h, finish]

/-- Where the source resolves, the fault of the destination at the target width is raised. -/
theorem extendOp_of_loc_error (htw : targetWidth sel = some tw) (ha : resolveRead s src w = .ok a)
    (hl : resolveLoc s dst tw = .error c) : extendOp ext w src dst sel s = .next (s.raise c) := by
  simp only [extendOp, htw, ha, resolveWrite_error.2 hl, finish]

/-- Where all resolve, the extended value is stored at the destination, at the target width. -/
theorem extendOp_of_ok {l : Loc} (htw : targetWidth sel = some tw) (ha : resolveRead s src w = .ok a)
    (hl : resolveLoc s dst tw = .ok l) : extendOp ext w src dst sel s = .next (s.store l tw (ext w tw a)) := by
  simp only [extendOp, htw, ha, resolveWrite_ok.2 ⟨l, hl, rfl⟩, finish]

end

/-- An instruction whose handler is the shared shape, with an operator that `R` describes, follows the rule of an extend. -/
theorem extendRule_of_exec {mk : Width → Operand → Operand → Word16 → Instr} {index : Nat}
    {R : (w tw : Width) → BitVec w.bits → BitVec tw.bits → Prop} (ext : (w tw : Width) → BitVec w.bits → BitVec tw.bits)
    (henc : ∀ w src dst sel, HasEncoding (mk w src dst sel) index [src.toField, dst.toField, sel])
    (hexec : ∀ w src dst sel s, exec (mk w src dst sel) s = extendOp ext w src dst sel s)
    (hext : ∀ w tw a, R w tw a (ext w tw a)) : ExtendRule mk index R := by
  intro w src dst sel s
  rw [hexec]
  refine ⟨henc w src dst sel, fun hsel => extendOp_of_selector_none (targetWidth_above hsel), fun tw hbytes => ?_⟩
  have htw := targetWidth_of_bytes hbytes
  refine ⟨fun c hc => ?_, fun a c ha hc => ?_, fun a l ha hl => ?_⟩
  · exact extendOp_of_source_error htw hc
  · exact extendOp_of_loc_error htw ha hc
  · exact ⟨ext w tw a, _, hext w tw a, extendOp_of_ok htw ha hl, store_storedOnly s l tw (ext w tw a)⟩

/-! ## The operators (R181, R182) -/

section
variable {w tw : Width}

theorem bits_le_of_bytes_lt (h : w.bytes < tw.bytes) : w.bits ≤ tw.bits := Nat.mul_le_mul_left 8 h.le

theorem toNat_extendZero (a : BitVec w.bits) : (extendZero w tw a).toNat = a.toNat % 2 ^ tw.bits := BitVec.toNat_setWidth ..

theorem toNat_extendZero_of_lt (h : w.bytes < tw.bytes) (a : BitVec w.bits) : (extendZero w tw a).toNat = a.toNat :=
  BitVec.toNat_setWidth_of_le (bits_le_of_bytes_lt h)

theorem toInt_extendSign_of_lt (h : w.bytes < tw.bytes) (a : BitVec w.bits) : (extendSign w tw a).toInt = a.toInt := by
  rw [extendSign, if_pos h, BitVec.toInt_signExtend_of_le (bits_le_of_bytes_lt h)]

theorem toNat_extendSign_of_le (h : tw.bytes ≤ w.bytes) (a : BitVec w.bits) :
    (extendSign w tw a).toNat = a.toNat % 2 ^ tw.bits := by
  rw [extendSign, if_neg (Nat.not_lt_of_le h), BitVec.toNat_setWidth]

end

/-! ## The instructions -/

/-- Settles O38: each is the shared shape with its own operator, which cuts to the low bytes where the target is not wider. -/
theorem extendToTargetWidth : Obligations.ExtendToTargetWidth := by
  refine ⟨?_, ?_⟩
  · exact extendRule_of_exec extendZero (fun w src dst sel => hasEncoding (.sxu w src dst sel)) (fun _ _ _ _ _ => rfl)
      fun _ _ a => ⟨fun h => toNat_extendZero_of_lt h a, fun _ => toNat_extendZero a⟩
  · exact extendRule_of_exec extendSign (fun w src dst sel => hasEncoding (.sxi w src dst sel)) (fun _ _ _ _ _ => rfl)
      fun _ _ a => ⟨fun h => toInt_extendSign_of_lt h a, fun h => toNat_extendSign_of_le h a⟩

end Sys2Proof.Machine


/-! The jump (R190, R191): the condition of each code, and what the handler does, case by case. -/

namespace Sys2Proof.Machine

/-! ## The condition codes (R191) -/

section
variable {cc : Word16}

theorem condition_above (h : 6 < cc.toNat) (equal less : Bool) : condition cc equal less = none := by
  rw [← Option.not_isSome_iff_eq_none, condition_isSome, condOk, decide_eq_true_iff]
  exact Nat.not_le_of_lt h

/-- A legal code has a condition, the one its row of the table names. -/
theorem condition_of_le (h : cc.toNat ≤ 6) (equal less : Bool) :
    ∃ taken, condition cc equal less = some taken ∧ (taken = true ↔ ConditionHolds cc.toNat equal less) := by
  unfold condition
  generalize cc.toNat = n at h
  interval_cases n <;> exact ⟨_, rfl, by simp [ConditionHolds]⟩

end

/-! ## The handler (R190) -/

section
variable {w : Width} {cc : Word16} {target : Operand} {s : State}

/-- A code that names no condition faults, whatever the target. -/
theorem exec_jmp_of_condition_none (h : condition cc s.equal s.less = none) :
    exec (.jmp w cc target) s = .next (s.raise .invalidJumpCondition) := by
  simp only [exec, execJmp, h, finish]

/-- The target's fault is raised, whether or not the jump is taken (D14). -/
theorem exec_jmp_of_target_error {taken : Bool} {c : Cause} (h : condition cc s.equal s.less = some taken)
    (hv : resolveRead s target .w2 = .error c) : exec (.jmp w cc target) s = .next (s.raise c) := by
  simp only [exec, execJmp, h, Config.ptr, hv, finish]

/-- Where the target resolves, `pc` is written if the condition holds. -/
theorem exec_jmp_of_ok {taken : Bool} {v : Word16} (h : condition cc s.equal s.less = some taken)
    (hv : resolveRead s target .w2 = .ok v) : exec (.jmp w cc target) s = .next (if taken then s.setPc v else s) := by
  simp only [exec, execJmp, h, Config.ptr, hv, finish]

/-- Where the target resolves, the code's own row of the table decides. -/
theorem exec_jmp_of_code {n : Nat} {taken : Bool} {v : Word16} (hcc : cc.toNat = n)
    (hrow : condition (BitVec.ofNat 16 n) s.equal s.less = some taken) (hv : resolveRead s target .w2 = .ok v) :
    exec (.jmp w cc target) s = .next (if taken then s.setPc v else s) := by
  rw [← hcc, BitVec.ofNat_toNat, BitVec.setWidth_eq] at hrow
  exact exec_jmp_of_ok hrow hv

end

/-- A write of `pc` changes nothing but the low 16 bits of `cur` (R26). -/
theorem setPc_frame (s : State) (v : Word16) :
    OnlyLow16 [.cur] s (s.setPc v) ∧ SameMemory s (s.setPc v) ∧ SameFlags s (s.setPc v) ∧ SameStatus s (s.setPc v) ∧
      SameStreams s (s.setPc v) :=
  ⟨setPc_onlyLow16 s v, fun _ => rfl, ⟨rfl, rfl⟩, ⟨rfl, rfl, rfl, rfl, rfl⟩, ⟨rfl, rfl, rfl, rfl⟩⟩

/-! ## The instruction -/

/-- Settles O39: the code is checked, then the target; the jump not taken is a write of `pc` with its own value. -/
theorem jumpWritesPcIfConditionHolds : Obligations.JumpWritesPcIfConditionHolds := by
  refine fun w cc target s => ⟨hasEncoding (.jmp w cc target), fun hcc => ?_, fun c hcc hc => ?_, fun v hcc hv => ?_⟩
  · exact exec_jmp_of_condition_none (condition_above hcc _ _)
  · obtain ⟨taken, hcond, -⟩ := condition_of_le hcc s.equal s.less
    exact exec_jmp_of_target_error hcond hc
  · obtain ⟨taken, hcond, hiff⟩ := condition_of_le hcc s.equal s.less
    refine ⟨_, exec_jmp_of_ok hcond hv, ?_⟩
    rw [← hiff]
    cases taken with
    | true => exact ⟨fun _ => State.pc_setPc s v, fun hnot => absurd rfl hnot, setPc_frame s v⟩
    | false =>
      have hself := setPc_frame s s.pc
      rw [State.setPc_self] at hself
      exact ⟨nofun, fun _ => rfl, hself⟩

/-- Settles O40: each row is the handler's case for the condition its code selects. -/
theorem conditionTable : Obligations.ConditionTable :=
  fun _ _ _ _ _ hv => ⟨
    fun h => exec_jmp_of_code (taken := true) h rfl hv,
    fun h => exec_jmp_of_code h rfl hv,
    fun h => exec_jmp_of_code h rfl hv,
    fun h => exec_jmp_of_code h rfl hv,
    fun h => exec_jmp_of_code h rfl hv,
    fun h => exec_jmp_of_code h rfl hv,
    fun h => exec_jmp_of_code h rfl hv,
    fun h => exec_jmp_of_condition_none (condition_above h _ _)⟩

end Sys2Proof.Machine


/-! The stack and subroutine instructions (R200 to R206): what each handler does, case by case, and the round trips. -/

namespace Sys2Proof.Machine

/-! ## The stack pointer (R27) -/

/-- A write of `sp` touches the low 16 bits of `stk` alone (R27). -/
theorem setSp_onlyLow16 (s : State) (a : Word16) : OnlyLow16 [.stk] s (s.setSp a) :=
  ⟨fun r hr => Regs.get_set_ne _ _ (by simpa using hr), fun r k hk => by rw [State.getLsbD_setSp, if_neg (by omega)]⟩

/-- A write of `sp` changes nothing else. -/
theorem setSp_frame (s : State) (a : Word16) :
    OnlyLow16 [.stk] s (s.setSp a) ∧ SameMemory s (s.setSp a) ∧ SameFlags s (s.setSp a) ∧ SameStatus s (s.setSp a) ∧
      SameStreams s (s.setSp a) :=
  ⟨setSp_onlyLow16 s a, fun _ => rfl, ⟨rfl, rfl⟩, ⟨rfl, rfl, rfl, rfl, rfl⟩, ⟨rfl, rfl, rfl, rfl⟩⟩

/-- Two changes of low halves, one after the other. -/
theorem OnlyLow16.trans {qs rs : List Reg} {s t u : State} (h : OnlyLow16 qs s t) (h' : OnlyLow16 rs t u) :
    OnlyLow16 (qs ++ rs) s u := by
  obtain ⟨hreg, hbit⟩ := h
  obtain ⟨hreg', hbit'⟩ := h'
  refine ⟨fun r hr => ?_, fun r k hk => (hbit' r k hk).trans (hbit r k hk)⟩
  obtain ⟨hq, hr⟩ := not_or.1 (mt List.mem_append.2 hr)
  exact (hreg' r hr).trans (hreg r hq)

/-- A width in bytes as a 16-bit word. -/
theorem toNat_ofNat_bytes (w : Width) : (BitVec.ofNat 16 w.bytes).toNat = w.bytes := by
  cases w <;> rfl

theorem toNat_add_bytes (a : Word16) (w : Width) : (a + BitVec.ofNat 16 w.bytes).toNat = (a.toNat + w.bytes) % 2 ^ 16 := by
  rw [BitVec.toNat_add, toNat_ofNat_bytes]

theorem toNat_sub_bytes (a : Word16) (w : Width) :
    (a - BitVec.ofNat 16 w.bytes).toNat = (a.toNat + 2 ^ 16 - w.bytes) % 2 ^ 16 := by
  have h := width_bytes_le w
  rw [BitVec.toNat_sub, toNat_ofNat_bytes]
  omega

/-- Where `ret` reads its return address: `sp` less the unsigned count and the pointer, modulo `2^16` (D15). -/
theorem toNat_sub_count {k : Nat} (a : Word16) (n : BitVec k) :
    (a - n.setWidth 16 - 2#16).toNat = (a.toNat + 2 ^ 17 - n.toNat % 2 ^ 16 - 2) % 2 ^ 16 := by
  have h : n.toNat % 2 ^ 16 < 2 ^ 16 := Nat.mod_lt _ (by decide)
  simp only [BitVec.toNat_sub, BitVec.toNat_setWidth, BitVec.toNat_ofNat]
  omega

/-! ## What is pushed, and reads of it -/

theorem pushValue_of_inBounds {s : State} {w : Width} (h : s.sp.toNat + w.bytes ≤ s.memSize) (v : BitVec w.bits) :
    ∃ t, pushValue s w v = .ok t :=
  ⟨_, pushValue_ok.2 ⟨h, rfl⟩⟩

/-- All a push inside memory does: the slot is written and `sp` raised (R201). -/
theorem pushValue_effect {s t : State} {w : Width} {v : BitVec w.bits} (h : pushValue s w v = .ok t) :
    BytesWritten s t s.sp.toNat w v ∧ t.sp.toNat = (s.sp.toNat + w.bytes) % 2 ^ 16 ∧ OnlyLow16 [.stk] s t ∧ SameFlags s t ∧
      SameStatus s t ∧ SameStreams s t := by
  obtain ⟨-, rfl⟩ := pushValue_ok.1 h
  refine ⟨putBytes_bytesWritten s s.sp.toNat w v, ?_, setSp_onlyLow16 (s.putBytes _ w v) _, ⟨rfl, rfl⟩,
    ⟨rfl, rfl, rfl, rfl, rfl⟩, ⟨rfl, rfl, rfl, rfl⟩⟩
  rw [State.sp_setSp, toNat_add_bytes]

/-- A push leaves `sp` past its slot, and the slot reads as what was pushed (R205). -/
theorem pushValue_memRead {s t : State} {w : Width} {v : BitVec w.bits} (h : pushValue s w v = .ok t) :
    t.sp = s.sp + BitVec.ofNat 16 w.bytes ∧ t.memRead s.sp.toNat w = .ok v := by
  obtain ⟨hin, rfl⟩ := pushValue_ok.1 h
  exact ⟨State.sp_setSp _ _, memRead_putBytes hin v⟩

/-- A read depends on the capacity and on its own bytes. -/
theorem memRead_congr {s t : State} {a : Nat} {w : Width} (hn : t.memSize = s.memSize)
    (h : ∀ k, k < w.bytes → t.mem.read (a + k) = s.mem.read (a + k)) : t.memRead a w = s.memRead a w := by
  unfold State.memRead State.inBounds
  rw [hn, Memory.readLE_congr h]

/-- A pointer inside memory is the word of its two bytes, the low byte first (R50). -/
theorem memRead_pointer {s : State} {a : Nat} (h : a + 2 ≤ s.memSize) :
    s.memRead a .w2 = .ok (fieldOfBytes (s.mem.read (a + 1)) (s.mem.read a)) := by
  refine State.memRead_ok.2 ⟨h, eq_of_bytes (n := 2) fun k hk => ?_⟩
  refine Eq.trans ?_ (Memory.extract_readLE s.mem a hk).symm
  interval_cases k
  · exact fieldLow_fieldOfBytes _ _
  · exact fieldHigh_fieldOfBytes _ _

theorem resolveRead_imm_zero (s : State) (w : Width) : resolveRead s (.imm 0) w = .ok 0#w.bits :=
  congrArg Except.ok (BitVec.setWidth_zero w.bits 14)

/-! ## The handlers -/

section
variable {w : Width} {o : Operand} {s : State} {c : Cause}

theorem exec_stks_of_error (h : resolveRead s o .w2 = .error c) : exec (.stks w o) s = .next (s.raise c) := by
  simp only [exec, execStks, Config.ptr, h, finish]

theorem exec_stks_of_ok {v : Word16} (h : resolveRead s o .w2 = .ok v) : exec (.stks w o) s = .next (s.setSp v) := by
  simp only [exec, execStks, Config.ptr, h, finish]

theorem exec_push_of_source_error (h : resolveRead s o w = .error c) : exec (.push w o) s = .next (s.raise c) := by
  simp only [exec, execPush, h, finish]

/-- Where the source resolves, the fault of the push is raised. -/
theorem exec_push_of_push_error {v : BitVec w.bits} (hv : resolveRead s o w = .ok v) (h : pushValue s w v = .error c) :
    exec (.push w o) s = .next (s.raise c) := by
  simp only [exec, execPush, hv, h, finish]

/-- Where its value is pushed, `push` does nothing else. -/
theorem exec_push_of_ok {v : BitVec w.bits} {t : State} (hv : resolveRead s o w = .ok v) (h : pushValue s w v = .ok t) :
    exec (.push w o) s = .next t := by
  simp only [exec, execPush, hv, h, finish]

theorem exec_pop_of_slot_error (h : s.memRead (s.sp - BitVec.ofNat 16 w.bytes).toNat w = .error c) :
    exec (.pop w o) s = .next (s.raise c) := by
  simp only [exec, execPop, h, finish]

/-- Where the slot lies inside memory, the destination's fault is raised with `sp` as it was (D21). -/
theorem exec_pop_of_loc_error {v : BitVec w.bits} (hv : s.memRead (s.sp - BitVec.ofNat 16 w.bytes).toNat w = .ok v)
    (hl : resolveLoc (s.setSp (s.sp - BitVec.ofNat 16 w.bytes)) o w = .error c) : exec (.pop w o) s = .next (s.raise c) := by
  simp only [exec, execPop, hv, resolveWrite_error.2 hl, finish]

/-- Where the destination resolves too, with `sp` lowered, the slot's value is stored there (D10). -/
theorem exec_pop_of_ok {v : BitVec w.bits} {l : Loc} (hv : s.memRead (s.sp - BitVec.ofNat 16 w.bytes).toNat w = .ok v)
    (hl : resolveLoc (s.setSp (s.sp - BitVec.ofNat 16 w.bytes)) o w = .ok l) :
    exec (.pop w o) s = .next ((s.setSp (s.sp - BitVec.ofNat 16 w.bytes)).store l w v) := by
  simp only [exec, execPop, hv, resolveWrite_ok.2 ⟨l, hl, rfl⟩, finish]

theorem exec_call_of_target_error (h : resolveRead s o .w2 = .error c) : exec (.call w o) s = .next (s.raise c) := by
  simp only [exec, execCall, Config.ptr, h, finish]

/-- Where the target resolves, the fault of the push is raised. -/
theorem exec_call_of_push_error {v : Word16} (hv : resolveRead s o .w2 = .ok v) (h : pushValue s .w2 s.pc = .error c) :
    exec (.call w o) s = .next (s.raise c) := by
  simp only [exec, execCall, Config.ptr, hv, h, finish]

/-- Where `pc` is pushed too, `call` jumps to its target. -/
theorem exec_call_of_ok {v : Word16} {t : State} (hv : resolveRead s o .w2 = .ok v) (h : pushValue s .w2 s.pc = .ok t) :
    exec (.call w o) s = .next (t.setPc v) := by
  simp only [exec, execCall, Config.ptr, hv, h, finish]

theorem exec_ret_of_count_error (h : resolveRead s o w = .error c) : exec (.ret w o) s = .next (s.raise c) := by
  simp only [exec, execRet, h, finish]

/-- Where the count resolves, the fault of the read below the discarded bytes is raised. -/
theorem exec_ret_of_slot_error {n : BitVec w.bits} (hn : resolveRead s o w = .ok n)
    (h : s.memRead (s.sp - n.setWidth 16 - 2#16).toNat .w2 = .error c) : exec (.ret w o) s = .next (s.raise c) := by
  simp only [exec, execRet, hn, Config.ptr, Width.bytes, h, finish]

/-- Where that read is inside memory, `sp` falls to it and `pc` is the pointer there. -/
theorem exec_ret_of_ok {n : BitVec w.bits} {ra : Word16} (hn : resolveRead s o w = .ok n)
    (h : s.memRead (s.sp - n.setWidth 16 - 2#16).toNat .w2 = .ok ra) :
    exec (.ret w o) s = .next ((s.setSp (s.sp - n.setWidth 16 - 2#16)).setPc ra) := by
  simp only [exec, execRet, hn, Config.ptr, Width.bytes, h, finish]

end

/-- `stks` is the move of its operand to the register `sp` lies in (R200). -/
theorem execStks_eq_execMov (w : Width) (src : Operand) (s : State) : execStks w src s = execMov .w2 src (.reg 2) s := by
  unfold execStks execMov sourceToDest
  cases resolveRead s src .w2 <;> rfl

/-! ## The instructions -/

/-- Settles O41: a write of `sp`, which is the store to the low two bytes of `stk`. -/
theorem stksSetsStackPointer : Obligations.StksSetsStackPointer :=
  fun w src s => ⟨hasEncoding (.stks w src), execStks_eq_execMov w src s, fun _ hc => exec_stks_of_error hc,
    fun v hv => ⟨s.setSp v, exec_stks_of_ok hv, State.sp_setSp s v, setSp_frame s v⟩⟩

/-- Settles O42: the operand is resolved, then its value pushed. -/
theorem pushStoresThenRaisesSp : Obligations.PushStoresThenRaisesSp := by
  refine fun w src s => ⟨hasEncoding (.push w src), fun c hc => exec_push_of_source_error hc, fun v hv hout => ?_,
    fun v hv hin => ?_⟩
  · exact exec_push_of_push_error hv (pushValue_error.2 ⟨hout, rfl⟩)
  · obtain ⟨t, hpush⟩ := pushValue_of_inBounds hin v
    exact ⟨t, exec_push_of_ok hv hpush, pushValue_effect hpush⟩

/-- Settles O43: the slot is read, then its value stored in the state with `sp` lowered. -/
theorem popLowersSpThenStores : Obligations.PopLowersSpThenStores := by
  intro w dst s
  rw [← toNat_sub_bytes]
  refine ⟨hasEncoding (.pop w dst), ⟨?_, setSp_frame s _⟩, fun hout => ?_, fun c hin hc => ?_, fun l hin hl => ?_⟩
  · exact congrArg BitVec.toNat (State.sp_setSp s _)
  · exact exec_pop_of_slot_error (State.memRead_error.2 ⟨hout, rfl⟩)
  · exact exec_pop_of_loc_error (State.memRead_ok.2 ⟨hin, rfl⟩) hc
  · exact ⟨_, _, fun k hk => Memory.extract_readLE s.mem _ hk, exec_pop_of_ok (State.memRead_ok.2 ⟨hin, rfl⟩) hl,
      store_storedOnly _ l w _⟩

/-- Settles O44: the push of `pc`, then the write of `pc`. -/
theorem callPushesReturnAddress : Obligations.CallPushesReturnAddress := by
  refine fun w target s => ⟨hasEncoding (.call w target), fun c hc => exec_call_of_target_error hc, fun v hv hout => ?_,
    fun v hv hin => ?_⟩
  · exact exec_call_of_push_error hv (pushValue_error.2 ⟨hout, rfl⟩)
  · obtain ⟨t, hpush⟩ := pushValue_of_inBounds (w := .w2) hin s.pc
    obtain ⟨hbytes, hsp, hregs, hflags, hstatus, hstreams⟩ := pushValue_effect hpush
    exact ⟨t.setPc v, exec_call_of_ok hv hpush, hbytes, hsp, State.pc_setPc t v, hregs.trans (setPc_onlyLow16 t v), hflags, hstatus,
      hstreams⟩

/-- Settles O45: the count is discarded, then the pointer below is read into `pc`. -/
theorem retDiscardsThenReturns : Obligations.RetDiscardsThenReturns := by
  refine fun w count s => ⟨hasEncoding (.ret w count), fun c hc => exec_ret_of_count_error hc, fun n hn => ?_⟩
  rw [← toNat_sub_count]
  refine ⟨fun hout => exec_ret_of_slot_error hn (State.memRead_error.2 ⟨hout, rfl⟩), fun hin => ?_⟩
  obtain ⟨hregs, hmem, hflags, hstatus, hstreams⟩ := setSp_frame s (s.sp - n.setWidth 16 - 2#16)
  refine ⟨_, exec_ret_of_ok hn (memRead_pointer hin), ?_, ?_, hregs.trans (setPc_onlyLow16 _ _), hmem, hflags, hstatus, hstreams⟩
  · rw [State.sp_setPc, State.sp_setSp]
  · rw [State.pc_setPc, State.sp_setPc, State.sp_setSp, fieldOfBytes_toNat, Nat.add_comm]

/-! ## The round trips (R205, R206) -/

/-- Settles O57: `sp` is lowered to the slot of the push, and the store to another register than `stk` leaves it there. -/
theorem pushThenPopGivesTheValueBack : Obligations.PushThenPopGivesTheValueBack := by
  intro w src s v r p hv hin hp hr
  obtain ⟨t, hpush⟩ := pushValue_of_inBounds hin v
  obtain ⟨hsp, hread⟩ := pushValue_memRead hpush
  have hlow : t.sp - BitVec.ofNat 16 w.bytes = s.sp := by rw [hsp, BitVec.add_sub_cancel]
  have hreg := resolveReg_ok.1 (resolveReg_regNumber hp)
  refine ⟨t, _, exec_push_of_ok hv hpush, exec_pop_of_ok (by rwa [hlow]) (resolveLoc_reg.2 ⟨p, rfl, hreg⟩), ?_, ?_⟩
  · have hkept := State.regRead_regWrite_ne (t.setSp (t.sp - BitVec.ofNat 16 w.bytes)) w .w2 v hr.symm
    exact hkept.trans ((State.sp_setSp t _).trans hlow)
  · exact State.regRead_regWrite_self _ r w v

/-- Settles O58: with nothing to discard `ret` reads the slot of the call, which still holds the return address. -/
theorem callThenReturn : Obligations.CallThenReturn := by
  intro w u target v s hv hin
  obtain ⟨t, hpush⟩ := pushValue_of_inBounds (w := .w2) hin s.pc
  obtain ⟨hsp, hread⟩ := pushValue_memRead hpush
  refine ⟨_, exec_call_of_ok hv hpush, State.pc_setPc _ v, fun t' hsp' hn hbytes => ?_⟩
  have hslot : t'.sp - (0#u.bits).setWidth 16 - 2#16 = s.sp := by
    rw [hsp', State.sp_setPc, hsp, BitVec.setWidth_zero, BitVec.sub_zero]
    exact BitVec.add_sub_cancel _ _
  have hread' : t'.memRead s.sp.toNat .w2 = .ok s.pc := (memRead_congr (w := .w2) hn hbytes).trans hread
  refine ⟨_, exec_ret_of_ok (resolveRead_imm_zero t' u) (by rwa [hslot]), State.pc_setPc _ _, ?_⟩
  rw [State.sp_setPc, State.sp_setSp, hslot]

end Sys2Proof.Machine


/-! Halt and host I/O (R220 to R222): what each handler does, case by case. -/

namespace Sys2Proof.Machine

/-! ## The next input (R42, R221) -/

section
variable {s : State} {b : Byte}

theorem nextInput_of_byte (h : s.input[s.inPos]? = some b) : s.nextInput = some (b, s.consume) := by
  simp only [State.nextInput, h]

theorem nextInput_of_ended (hpos : s.input.length ≤ s.inPos) (hend : s.inputEnded = true) :
    s.nextInput = some (Config.eofByte, s) := by
  simp only [State.nextInput, List.getElem?_eq_none hpos, hend, if_true]

theorem nextInput_of_blocked (h : s.InputBlocked) : s.nextInput = none := by
  obtain ⟨hpos, hopen⟩ := h
  simp only [State.nextInput, List.getElem?_eq_none hpos, hopen, Bool.false_eq_true, if_false]

end

/-! ## The handlers -/

section
variable {w : Width} {o : Operand} {s : State} {l : Loc} {b : Byte} {c : Cause}

theorem exec_getc_of_loc_error (h : resolveLoc s o .w1 = .error c) : exec (.getc_ w o) s = .next (s.raise c) := by
  simp only [exec, execGetc, h]

/-- Where the destination resolves, `getc_` waits for the host's answer. -/
theorem exec_getc_of_blocked (hl : resolveLoc s o .w1 = .ok l) (h : s.InputBlocked) :
    exec (.getc_ w o) s = .fault .awaitingInput := by
  simp only [exec, execGetc, hl, nextInput_of_blocked h]

/-- Where the destination resolves and the host has answered, the answer is stored in the state that taking it leaves. -/
theorem exec_getc_of_nextInput {u : State} (hl : resolveLoc s o .w1 = .ok l) (h : s.nextInput = some (b, u)) :
    exec (.getc_ w o) s = .next (u.store l .w1 b) := by
  simp only [exec, execGetc, hl, h]

theorem exec_putc_of_error (h : resolveRead s o w = .error c) : exec (.putc_ w o) s = .next (s.raise c) := by
  simp only [exec, execPutc, h, finish]

theorem exec_putc_of_ok {v : BitVec w.bits} (h : resolveRead s o w = .ok v) :
    exec (.putc_ w o) s = .next (s.emit (v.setWidth 8)) := by
  simp only [exec, execPutc, h, finish]

/-! ## What an answered `getc_` does -/

/-- A byte taken is stored at the destination and consumed, and nothing else changes. -/
theorem exec_getc_takes_byte (hl : resolveLoc s o .w1 = .ok l) (h : s.nextInput = some (b, s.consume)) :
    ∃ t, exec (.getc_ w o) s = .next t ∧ LocWritten s t l .w1 b ∧ t.inPos = s.inPos + 1 ∧ t.input = s.input ∧
      t.inputEnded = s.inputEnded ∧ t.output = s.output ∧ SameFlags s t ∧ SameStatus s t := by
  obtain ⟨hloc, hflags, hstatus, hinput, hended, hpos, houtput⟩ := store_storedOnly s.consume l .w1 b
  exact ⟨_, exec_getc_of_nextInput hl h, hloc, hpos, hinput, hended, houtput, hflags, hstatus⟩

/-- At end-of-stream `EOF_BYTE` is stored, and nothing else changes (D25). -/
theorem exec_getc_stores_eofByte (hl : resolveLoc s o .w1 = .ok l) (h : s.nextInput = some (Config.eofByte, s)) :
    ∃ t, exec (.getc_ w o) s = .next t ∧ StoredOnly s t l .w1 0xFF#8 :=
  ⟨_, exec_getc_of_nextInput hl h, store_storedOnly s l .w1 Config.eofByte⟩

/-- A waiting `getc_` takes the first byte the host then supplies. -/
theorem exec_getc_after_supplyInput (hl : resolveLoc s o .w1 = .ok l) (hi : s.InputOk) (hb : s.InputBlocked) (bs : List Byte) :
    ∃ t, exec (.getc_ w o) (s.supplyInput (b :: bs)) = .next t ∧ LocWritten s t l .w1 b ∧ t.inPos = s.inPos + 1 ∧
      t.input = s.input ++ b :: bs ∧ t.inputEnded = false ∧ t.output = s.output ∧ SameFlags s t ∧ SameStatus s t := by
  have hnext := nextInput_supplyInput hi hb b bs
  rw [State.supplyInput_open hb.2] at hnext ⊢
  have hl' : resolveLoc { s with input := s.input ++ b :: bs } o .w1 = .ok l := (resolveLoc_congr rfl rfl o .w1).trans hl
  obtain ⟨t, hexec, hloc, hpos, hinput, hended, hrest⟩ := exec_getc_takes_byte hl' hnext
  exact ⟨t, hexec, hloc, hpos, hinput, hended.trans hb.2, hrest⟩

/-- A waiting `getc_` meets the end-of-stream the host then declares. -/
theorem exec_getc_after_closeInput (hl : resolveLoc s o .w1 = .ok l) (hb : s.InputBlocked) :
    ∃ t, exec (.getc_ w o) s.closeInput = .next t ∧ StoredOnly s.closeInput t l .w1 0xFF#8 :=
  exec_getc_stores_eofByte ((resolveLoc_congr rfl rfl o .w1).trans hl) (nextInput_closeInput hb)

end

/-! ## The instructions -/

/-- Settles O46: the fault mechanism with the cause `Halt`, which is reported as no fault. -/
theorem haltStopsTheMachine : Obligations.HaltStopsTheMachine :=
  fun w s => ⟨hasEncoding (.halt w), s.raise .halt, rfl, State.raise_running s _, State.raise_faultCause s _,
    State.raise_panicMessage s _, rfl, State.raise_regs s _, fun _ => rfl, ⟨rfl, rfl⟩, State.raise_cycles s _,
    State.raise_memSize s _, ⟨rfl, rfl, rfl, rfl⟩⟩

/-- Settles O47: the destination is resolved, then the host's answer decides; a wait ends with the host's next move. -/
theorem getcReadsOneByte : Obligations.GetcReadsOneByte :=
  fun w dst _ => ⟨hasEncoding (.getc_ w dst),
    fun _ hc => exec_getc_of_loc_error hc,
    fun _ _ hl hbyte => exec_getc_takes_byte hl (nextInput_of_byte hbyte),
    fun _ hl hpos hend => exec_getc_stores_eofByte hl (nextInput_of_ended hpos hend),
    fun _ hl hb => exec_getc_of_blocked hl hb,
    fun _ _ bs hl hi hb => exec_getc_after_supplyInput hl hi hb bs,
    fun _ hl hb => exec_getc_after_closeInput hl hb⟩

/-- Settles O48: the operand is resolved, then its low byte appended to the output. -/
theorem putcEmitsLowByte : Obligations.PutcEmitsLowByte := by
  refine fun w src s => ⟨hasEncoding (.putc_ w src), fun c hc => exec_putc_of_error hc, fun v hv => ?_⟩
  rw [BitVec.ofNat_toNat]
  exact ⟨s.emit (v.setWidth 8), exec_putc_of_ok hv, rfl, rfl, rfl, rfl, rfl, fun _ => rfl, ⟨rfl, rfl⟩, ⟨rfl, rfl, rfl, rfl, rfl⟩⟩

end Sys2Proof.Machine


/-! The compares (R230 to R232): the shape they share, case by case, and what each flag says. -/

namespace Sys2Proof.Machine

/-! ## The shared shape (R231) -/

section
variable {w : Width} {less : BitVec w.bits → BitVec w.bits → Bool} {a b : Operand} {s : State} {x y : BitVec w.bits} {c : Cause}

/-- The first operand's fault is raised, whatever the second. -/
theorem compareOp_of_first_error (hx : resolveRead s a w = .error c) : compareOp w less a b s = .next (s.raise c) := by
  simp only [compareOp, hx, finish]

/-- Where the first operand resolves, the second one's fault is raised. -/
theorem compareOp_of_second_error (hx : resolveRead s a w = .ok x) (hy : resolveRead s b w = .error c) :
    compareOp w less a b s = .next (s.raise c) := by
  simp only [compareOp, hx, hy, finish]

/-- Where both resolve, both flags are written. -/
theorem compareOp_of_ok (hx : resolveRead s a w = .ok x) (hy : resolveRead s b w = .ok y) :
    compareOp w less a b s = .next (s.setFlags (compareEqual x y) (less x y)) := by
  simp only [compareOp, hx, hy, finish]

end

/-! ## The flags -/

section
variable {n : Nat} (x y : BitVec n)

theorem compareEqual_iff : compareEqual x y = true ↔ x.toNat = y.toNat := by
  rw [compareEqual, decide_eq_true_iff, BitVec.toNat_eq]

theorem compareLessUnsigned_iff : compareLessUnsigned x y = true ↔ x.toNat < y.toNat := decide_eq_true_iff

theorem compareLessSigned_iff : compareLessSigned x y = true ↔ x.toInt < y.toInt := decide_eq_true_iff

end

/-! ## The instructions -/

/-- An instruction whose handler is the shared shape, with an order that `L` describes, follows the rule of a compare. -/
theorem compareRule_of_exec {mk : Width → Operand → Operand → Instr} {index : Nat}
    {L : (w : Width) → BitVec w.bits → BitVec w.bits → Prop} (less : (w : Width) → BitVec w.bits → BitVec w.bits → Bool)
    (henc : ∀ w a b, HasEncoding (mk w a b) index [a.toField, b.toField])
    (hexec : ∀ w a b s, exec (mk w a b) s = compareOp w (less w) a b s) (hless : ∀ w x y, less w x y = true ↔ L w x y) :
    CompareRule mk index L := by
  intro w a b s
  rw [hexec]
  refine ⟨henc w a b, fun c hc => ?_, fun x c hx hc => ?_, fun x y hx hy => ?_⟩
  · exact compareOp_of_first_error hc
  · exact compareOp_of_second_error hx hc
  · exact ⟨_, compareOp_of_ok hx hy, compareEqual_iff x y, hless w x y, rfl, fun _ => rfl, ⟨rfl, rfl, rfl, rfl, rfl⟩,
      ⟨rfl, rfl, rfl, rfl⟩⟩

/-- Settles O49: each is the shared shape with its own order. -/
theorem compareWritesBothFlags : Obligations.CompareWritesBothFlags := by
  refine ⟨?_, ?_⟩
  · exact compareRule_of_exec (fun _ => compareLessUnsigned) (fun w a b => hasEncoding (.ucmp w a b)) (fun _ _ _ _ => rfl)
      fun _ => compareLessUnsigned_iff
  · exact compareRule_of_exec (fun _ => compareLessSigned) (fun w a b => hasEncoding (.icmp w a b)) (fun _ _ _ _ => rfl)
      fun _ => compareLessSigned_iff

end Sys2Proof.Machine


/-! Taking a fault (R240 to R242), and which steps complete (R278). -/

namespace Sys2Proof.Machine

/-! ## Causes -/

/-- Settles O50: `raise` replaces the three fields of the status and no other; the table of the causes by evaluation. -/
theorem raiseRecordsTheCauseOnly : Obligations.RaiseRecordsTheCauseOnly :=
  ⟨fun s c => ⟨s.raise_running c, s.raise_faultCause c, s.raise_panicMessage c, s.raise_regs c, fun _ => rfl, ⟨rfl, rfl⟩,
    s.raise_cycles c, s.raise_memSize c, ⟨rfl, rfl, rfl, rfl⟩⟩, rfl⟩

/-- Settles O51: the faults a handler's checks allow are those of R241's table. -/
theorem handlersRaiseOnlyTheirOwnCauses : Obligations.HandlersRaiseOnlyTheirOwnCauses := by
  intro i s t c hs h ht
  obtain ⟨hc, -⟩ := exec_faultCause hs h ht
  exact hc

/-! ## Steps that complete -/

/-- Every handler answers a next state, or is a `getc_`'s that waits for the host (R221). -/
theorem exec_answers_or_waits (i : Instr) (s : State) :
    (∃ t, exec i s = .next t) ∨ (exec i s = .fault .awaitingInput ∧ s.InputBlocked ∧ i.mnemonic = .getc_) := by
  rcases exec_checks i s with ⟨r, hexec, -⟩ | ⟨-, hi, hwait⟩
  · obtain ⟨t, ht⟩ := finish_answers s r
    exact .inl ⟨t, hexec.trans ht⟩
  · cases i with
    | getc_ w dst => exact .inr ⟨hwait, (execGetc_waits (w := w) hwait).2, rfl⟩
    | _ => cases hi

/-- The instruction the fetch stage gives is one of the opcode byte at `pc` (R112). -/
theorem mnemonicOfByte_of_fetch_ok {s t : State} {i : Instr} (h : fetch s = .ok (i, t)) :
    mnemonicOfByte (codeAt s 0) = some i.mnemonic := by
  rw [codeAt_zero]
  simp only [fetch] at h
  split at h
  · split at h
    · cases h
    · rename_i m hm
      split at h
      · cases h
      · cases h
        rw [hm, mnemonic_assemble]
  · cases h

/-- An opcode byte's index is that of its mnemonic (R81, R92). -/
theorem index_of_mnemonicOfByte {b : Byte} {m : Mnemonic} (h : mnemonicOfByte b = some m) : b.toNat % 64 = m.index :=
  (opcodeIndex_toNat b).symm.trans (index_of_opcodeMap h).symm

/-- Settles O5: a fault at fetch is a next state, and of the handlers only `getc_`'s waits; the fetch advance leaves the input. -/
theorem runningStepCompletesUnlessInputBlocked : Obligations.RunningStepCompletesUnlessInputBlocked := by
  intro s hrun
  rcases fetch_cases s with ⟨-, hfetch⟩ | ⟨-, n, c, -, hfetch⟩ | ⟨-, i, hfetch⟩
  · exact .inl ⟨_, step_of_fetch_error hrun hfetch⟩
  · exact .inl ⟨_, step_of_fetch_error hrun hfetch⟩
  · rw [step_of_fetch_ok hrun hfetch]
    refine (exec_answers_or_waits i _).imp_right fun ⟨hwait, hblocked, hi⟩ => ⟨hwait, hblocked, ?_⟩
    rw [index_of_mnemonicOfByte (mnemonicOfByte_of_fetch_ok hfetch), hi]
    rfl

end Sys2Proof.Machine
